-- ==== Sys2Proof/Word.lean ====
section
/-!
DEFINITION. The two kinds of datum the hardware moves: words (register contents, generator masks, symbols) and
matrix values. Only the type of values and its zero stand here; the operations on words are in
Machine/Operands.lean, those on values in Machine/Numeric.lean.

WORDS. A word is the natural number of its bits, bit 0 the least significant (00_scope.md R9), held as a `Nat`. Its
width, `W_R` or `W_S`, is a synthesis parameter (R4), held in `Params`, so a type cannot fix it: every operation
that could leave the width takes it as an argument, exactly as R10 defines `a << s` as `(a * 2^s) mod 2^W`, and the
invariant of Safety.lean says that every stored word is below its width. DEDUCED, log 2.
-/

namespace Sys2Proof

/-- A value of a matrix entry (00_scope.md R7, R12). `fin q` is a finite real, written as a rational; the
admitted values are those with `0 ≤ q`. The other constructors are the values R146 names as not admitted: the
two infinities, negative zero and not-a-number. They can be stored and read back (41_matrix_write_ops.md
R127), and an infinity can be the bound of a column search (43_matrix_read_ops.md R154).
DESIGN CHOICE, log 4. -/
inductive Val where
  | fin (q : Rat)
  | posInf
  | negInf
  | negZero
  | nan (payload : Nat)
deriving DecidableEq, Repr, Inhabited

/-- The constant `vzero` of R12. -/
abbrev vzero : Val := .fin 0

end Sys2Proof
end

