-- ==== Sys2Proof/Config.lean ====
section
/-!
DEFINITION. What an implementation fixes (the synthesis parameters of 00_scope.md section 4) and the free
values, which are opaque constants without a body: no proof can see what they are.
-/

namespace Sys2Proof

/-- The numeric type chosen for `Val` (00_scope.md R7, R12; 92_eei_decisions.md D10). `exact` is
instantiation (a), exact rationals. `rounding k` is any other format, number `k`: its sums and quotients are
uninterpreted functions of which only the laws of R12 are known, so every claim about it holds for each
format that meets R12, instantiation (b) of D10 (IEEE 754 binary32) among them. DESIGN CHOICE, log 5. -/
inductive Numeric where
  | exact
  | rounding (k : Nat)
deriving DecidableEq, Repr

/-- The synthesis parameters (00_scope.md R4, R7, R8). `none` stands for "unbounded", which the table of R8
allows a model for `W_IDX` and `W_C`, and 92_eei_decisions.md D12 for `RM_CAP`. -/
structure Params where
  /-- `K`: input bits per symbol, number of shift registers (R4). -/
  k : Nat
  /-- `W_R`: width of a register and of a generator mask (R4). -/
  wR : Nat
  /-- `W_S`: width of the input symbol and of the output symbol (R4). -/
  wS : Nat
  /-- `RM_CAP`: the largest number of elements the store can hold (R8, D12). -/
  rmCap : Option Nat
  /-- `W_IDX`: width of position, column, candidate and dimension operands (R8, D11). -/
  wIdx : Option Nat
  /-- `W_C`: width of a constraint operand (R8, D5). -/
  wC : Option Nat
  /-- The numeric type of `Val` (R7, D10). -/
  numeric : Numeric
deriving DecidableEq, Repr

/-- The bounds R4 puts on the parameters: `K ≥ 1`, `W_R ≥ 1`, `W_S ≥ 1`. -/
abbrev Params.wf (p : Params) : Prop := 1 ≤ p.k ∧ 1 ≤ p.wR ∧ 1 ≤ p.wS

/-- The parameters of `State.reset`: those of the spec's reference code and test vectors (`K = 1`,
`W_R = W_S = 8`, exact `Val`), with nothing bounded. DESIGN CHOICE, log 1: the spec fixes no value, and every
statement about the machine ranges over all parameters. -/
def Params.standard : Params :=
  { k := 1, wR := 8, wS := 8, rmCap := none, wIdx := none, wC := none, numeric := .exact }

/-- `vadd` of the rounding format `k` on finite values, uninterpreted (93_implementation_defined.md U1). -/
opaque Config.roundedSum : Nat → Rat → Rat → Rat

/-- `vdiv` of the rounding format `k` on finite values, uninterpreted (U1). -/
opaque Config.roundedQuotient : Nat → Rat → Rat → Rat

/-- `vadd` where an operand is not finite: the spec gives it no value (U5). -/
opaque Config.sumOutside : Val → Val → Val

/-- `vdiv` where an operand is not finite: the spec gives it no value (U5). -/
opaque Config.quotientOutside : Val → Val → Val

/-- A free matrix value, a fresh one for each count of draws (43_matrix_read_ops.md R158, U5, U6). -/
opaque Config.freeVal : Nat → Val

/-- A free index, a fresh one for each count of draws (U5: the coordinates of an undefined search). -/
opaque Config.freeIndex : Nat → Nat

end Sys2Proof
end

