-- ==== Sys2Proof/Syntax.lean ====
section
/-!
DEFINITION. The seventeen operations of 30_encoding.md R70, the operand ports of R73 and the command a host
presents (R71, R72).
-/

namespace Sys2Proof

/-- The two units (00_scope.md R1). -/
inductive UnitId where
  | enc
  | rm
deriving DecidableEq, Repr

/-- The operand ports of R73, each with the value the host puts on it. A port the host does not drive holds
zero or the empty list. -/
structure Ports where
  /-- `FLAG`, 1 bit. -/
  flag : Bool := false
  /-- `SYM`, `W_S` bits. -/
  sym : Nat := 0
  /-- `REGS`, a list of `W_R`-bit words. -/
  regs : List Nat := []
  /-- `CONS`, a list of naturals. -/
  cons : List Nat := []
  /-- `GPOLY`, a list of lists of `W_R`-bit masks. -/
  gpoly : List (List Nat) := []
  /-- `LOG2`, a natural. -/
  log2 : Nat := 0
  /-- `LEN`, a natural. -/
  len : Nat := 0
  /-- `IDX`, position or column. -/
  idx : Nat := 0
  /-- `IDX2`, candidate. -/
  idx2 : Nat := 0
  /-- `VALS`, a list of values. -/
  vals : List Val := []
  /-- `VAL`, one value. -/
  val : Val := vzero
deriving DecidableEq, Repr

/-- What the host presents at a command port: the opcode byte and the operand ports (R71, R72). -/
structure Command where
  op : BitVec 8
  ports : Ports := {}
deriving DecidableEq, Repr

/-- The operations of the hardware, one constructor per row of the table of R70, with the operands the row
lists, in its order. -/
inductive Instr where
  | encConfig (cons : List Nat) (gpoly : List (List Nat))
  | encEncode (sym : Nat) (flag : Bool)
  | encClear
  | encGetRegisters
  | encSetRegisters (regs : List Nat)
  | encInfo
  | rmConfig (log2 len : Nat)
  | rmEnterSymbol (vals : List Val)
  | rmEnterSymbolAt (idx : Nat) (vals : List Val)
  | rmEnterErasure
  | rmEnterErasureAt (idx : Nat)
  | rmNormalize
  | rmDeinterleave
  | rmFindMax
  | rmFindMaxInCol (idx : Nat) (val : Val)
  | rmRead (idx2 idx : Nat)
  | rmDump
deriving DecidableEq, Repr

/-- The pseudo-operation `ENC.STEP sym` of R82: shift the symbol in. -/
abbrev Instr.encStep (sym : Nat) : Instr := .encEncode sym false

/-- The pseudo-operation `ENC.REPLACE sym` of R82: overwrite the most recently inserted symbol. -/
abbrev Instr.encReplace (sym : Nat) : Instr := .encEncode sym true

/-- The unit an operation belongs to (R70). -/
def Instr.unit : Instr → UnitId
  | .encConfig _ _ => .enc
  | .encEncode _ _ => .enc
  | .encClear => .enc
  | .encGetRegisters => .enc
  | .encSetRegisters _ => .enc
  | .encInfo => .enc
  | .rmConfig _ _ => .rm
  | .rmEnterSymbol _ => .rm
  | .rmEnterSymbolAt _ _ => .rm
  | .rmEnterErasure => .rm
  | .rmEnterErasureAt _ => .rm
  | .rmNormalize => .rm
  | .rmDeinterleave => .rm
  | .rmFindMax => .rm
  | .rmFindMaxInCol _ _ => .rm
  | .rmRead _ _ => .rm
  | .rmDump => .rm

/-- The operation is the `CONFIG` of its unit (60_exceptions.md R173, R177). -/
def Instr.isConfig : Instr → Bool
  | .encConfig _ _ => true
  | .encEncode _ _ => false
  | .encClear => false
  | .encGetRegisters => false
  | .encSetRegisters _ => false
  | .encInfo => false
  | .rmConfig _ _ => true
  | .rmEnterSymbol _ => false
  | .rmEnterSymbolAt _ _ => false
  | .rmEnterErasure => false
  | .rmEnterErasureAt _ => false
  | .rmNormalize => false
  | .rmDeinterleave => false
  | .rmFindMax => false
  | .rmFindMaxInCol _ _ => false
  | .rmRead _ _ => false
  | .rmDump => false

/-- Why the decoder rejects a command: its opcode is reserved (R77). -/
inductive DecodeError where
  | reservedOpcode (op : BitVec 8)
deriving DecidableEq, Repr

end Sys2Proof
end

