-- ==== Sys2Proof/WellFormed.lean ====
section
/-!
DEFINITION. Well-formed operations: every operand fits on its port (30_encoding.md R73). The lengths of `REGS`
and `VALS` are no matter of well-formedness: the hardware checks them itself and answers `ERR_ILLEGAL` (R78).
-/

namespace Sys2Proof

/-- A word fits in `w` bits. -/
def wordFits (w : Nat) (v : Nat) : Bool := decide (v < 2 ^ w)

/-- A natural fits on a port of `w` bits; an unbounded port takes every natural. -/
def natFits : Option Nat → Nat → Bool
  | none, _ => true
  | some w, v => decide (v < 2 ^ w)

/-- Every operand of the operation fits on its port, for the given synthesis parameters (R73). -/
def Instr.wf (p : Params) : Instr → Bool
  | .encConfig cons gpoly => cons.all (natFits p.wC) && gpoly.all (fun row => row.all (wordFits p.wR))
  | .encEncode sym _ => wordFits p.wS sym
  | .encClear => true
  | .encGetRegisters => true
  | .encSetRegisters regs => regs.all (wordFits p.wR)
  | .encInfo => true
  | .rmConfig log2 len => natFits p.wIdx log2 && natFits p.wIdx len
  | .rmEnterSymbol _ => true
  | .rmEnterSymbolAt idx _ => natFits p.wIdx idx
  | .rmEnterErasure => true
  | .rmEnterErasureAt idx => natFits p.wIdx idx
  | .rmNormalize => true
  | .rmDeinterleave => true
  | .rmFindMax => true
  | .rmFindMaxInCol idx _ => natFits p.wIdx idx
  | .rmRead idx2 idx => natFits p.wIdx idx2 && natFits p.wIdx idx
  | .rmDump => true

end Sys2Proof
end

