-- ==== Sys2Proof/Decode.lean ====
section
/-!
DEFINITION. The decoder of a command (opcode byte and operand ports) and the encoder, both from the opcode map
of 30_encoding.md R76 and the formats of R73.
-/

namespace Sys2Proof

/-- The low `w` bits of a word: what a port of `w` bits carries. -/
def wordOnPort (w : Nat) (v : Nat) : Nat := v % 2 ^ w

/-- What a natural port carries: the low `w` bits where its width is fixed, the natural itself where it is
unbounded. -/
def natOnPort : Option Nat → Nat → Nat
  | none, v => v
  | some w, v => v % 2 ^ w

/-- The values the unit sees on its ports: a port carries no bit above its width (R73). DEDUCED, log 3. -/
def Ports.latch (p : Params) (q : Ports) : Ports :=
  { flag := q.flag
    sym := wordOnPort p.wS q.sym
    regs := q.regs.map (wordOnPort p.wR)
    cons := q.cons.map (natOnPort p.wC)
    gpoly := q.gpoly.map (fun row => row.map (wordOnPort p.wR))
    log2 := natOnPort p.wIdx q.log2
    len := natOnPort p.wIdx q.len
    idx := natOnPort p.wIdx q.idx
    idx2 := natOnPort p.wIdx q.idx2
    vals := q.vals
    val := q.val }

/-- The field `UNIT`, `OP[7:4]` (R72). -/
def unitField (op : BitVec 8) : Nat := op.toNat / 16

/-- The field `FUNC`, `OP[3:0]` (R72). -/
def funcField (op : BitVec 8) : Nat := op.toNat % 16

/-- The function codes of unit `ENC` (R76). -/
def decodeEnc (func : Nat) (q : Ports) : Option Instr :=
  match func with
  | 0x0 => some (.encConfig q.cons q.gpoly)
  | 0x1 => some (.encEncode q.sym q.flag)
  | 0x2 => some .encClear
  | 0x3 => some .encGetRegisters
  | 0x4 => some (.encSetRegisters q.regs)
  | 0x5 => some .encInfo
  | _ => none

/-- The function codes of unit `RM` (R76). -/
def decodeRm (func : Nat) (q : Ports) : Option Instr :=
  match func with
  | 0x0 => some (.rmConfig q.log2 q.len)
  | 0x1 => some (.rmEnterSymbol q.vals)
  | 0x2 => some (.rmEnterSymbolAt q.idx q.vals)
  | 0x3 => some .rmEnterErasure
  | 0x4 => some (.rmEnterErasureAt q.idx)
  | 0x5 => some .rmNormalize
  | 0x6 => some .rmDeinterleave
  | 0x7 => some .rmFindMax
  | 0x8 => some (.rmFindMaxInCol q.idx q.val)
  | 0x9 => some (.rmRead q.idx2 q.idx)
  | 0xA => some .rmDump
  | _ => none

/-- The unit selector routes the function code to a unit; every other selector is reserved (R72, R77). -/
def decodeFields (unit func : Nat) (q : Ports) : Option Instr :=
  match unit with
  | 0x1 => decodeEnc func q
  | 0x2 => decodeRm func q
  | _ => none

/-- The decoder: total on every opcode byte and every value of the ports; a reserved opcode is rejected by
name (R76, R77). Ports outside the operation's format are not read (R78). -/
def decode (p : Params) (op : BitVec 8) (ports : Ports) : Except DecodeError Instr :=
  match decodeFields (unitField op) (funcField op) (ports.latch p) with
  | some i => .ok i
  | none => .error (.reservedOpcode op)

/-- The opcode byte of an operation (R76). -/
def Instr.opcode : Instr → BitVec 8
  | .encConfig _ _ => 0x10
  | .encEncode _ _ => 0x11
  | .encClear => 0x12
  | .encGetRegisters => 0x13
  | .encSetRegisters _ => 0x14
  | .encInfo => 0x15
  | .rmConfig _ _ => 0x20
  | .rmEnterSymbol _ => 0x21
  | .rmEnterSymbolAt _ _ => 0x22
  | .rmEnterErasure => 0x23
  | .rmEnterErasureAt _ => 0x24
  | .rmNormalize => 0x25
  | .rmDeinterleave => 0x26
  | .rmFindMax => 0x27
  | .rmFindMaxInCol _ _ => 0x28
  | .rmRead _ _ => 0x29
  | .rmDump => 0x2A

/-- The operand ports of an operation, by its format; a port outside the format is not driven (R73). -/
def Instr.operandPorts : Instr → Ports
  | .encConfig cons gpoly => { cons := cons, gpoly := gpoly }
  | .encEncode sym flag => { sym := sym, flag := flag }
  | .encClear => {}
  | .encGetRegisters => {}
  | .encSetRegisters regs => { regs := regs }
  | .encInfo => {}
  | .rmConfig log2 len => { log2 := log2, len := len }
  | .rmEnterSymbol vals => { vals := vals }
  | .rmEnterSymbolAt idx vals => { idx := idx, vals := vals }
  | .rmEnterErasure => {}
  | .rmEnterErasureAt idx => { idx := idx }
  | .rmNormalize => {}
  | .rmDeinterleave => {}
  | .rmFindMax => {}
  | .rmFindMaxInCol idx val => { idx := idx, val := val }
  | .rmRead idx2 idx => { idx2 := idx2, idx := idx }
  | .rmDump => {}

/-- The encoder: the command that presents an operation. -/
def encode (i : Instr) : Command := { op := i.opcode, ports := i.operandPorts }

/-- The operation the decoder reads from an opcode-table word: `w` is the opcode byte (every row of the table
has eight bits), and the operand ports hold zeros. A word of another width than one byte is no operation of
this hardware (R72). DESIGN CHOICE, log 19. -/
def decodeTableWord (nbits w : Nat) : Option Instr :=
  if nbits = 8 ∧ w < 256 then
    match decode Params.standard (BitVec.ofNat 8 w) {} with
    | .ok i => some i
    | .error _ => none
  else none

end Sys2Proof
end

