-- ==== Sys2Proof/Machine/State.lean ====
section
/-!
DEFINITION. The state of the machine (10_state.md), the responses of 30_encoding.md R74 and R75, the inputs of
the host, and the state after reset (70_reset_and_hazards.md R190).
-/

namespace Sys2Proof.Machine

/-- The store of `RM` (20_memory.md R50, R51): element address and value, in canonical form: addresses strictly
rising, no entry equal to `vzero`, which is what an element that is not listed reads as. DESIGN CHOICE,
log 17. -/
abbrev Memory := List (Nat × Val)

/-- The construction check of `ENC.CONFIG` that failed (40_encoder_ops.md R101), causes 1 to 6 in order. -/
inductive Cause where
  /-- 1: `length(CONS) ≠ K`. -/
  | constraintCount
  /-- 2: `K > W_S`. -/
  | inputsExceedSymbol
  /-- 3: `length(GPOLY) ≠ K`. -/
  | generatorCount
  /-- 4: some `CONS[j] > W_R`. -/
  | constraintExceedsRegister
  /-- 5: `n' ≤ K`. -/
  | outputsNotAboveInputs
  /-- 6: `n' > W_S`. -/
  | outputsExceedSymbol
deriving DecidableEq, Repr

/-- The status of a response (30_encoding.md R75); the cause exists exactly for `ERR_CONFIG` (R74). -/
inductive Status where
  | ok
  | errConfig (cause : Cause)
  | errNotConfigured
  | errIllegal
  | errAlreadyConfigured
  | errCapacity
deriving DecidableEq, Repr

/-- The result ports an operation lists in 30_encoding.md R70; a port it does not list carries no meaning
(R74) and does not appear. -/
inductive Result where
  /-- No result port. -/
  | none
  /-- `OSYM` of `ENC.ENCODE`. -/
  | symbol (osym : Nat)
  /-- `OREGS` of `ENC.GET_REGISTERS`. -/
  | registers (oregs : List Nat)
  /-- `OINFO = (K, n, m, constraints, genpoly)` of `ENC.INFO`. -/
  | info (k n m : Nat) (constraints : List Nat) (genpoly : List (List Nat))
  /-- `OVAL`, `OROW`, `OCOL` of `RM.FIND_MAX`. -/
  | maximum (oval : Val) (orow ocol : Nat)
  /-- `OVAL`, `OROW` of `RM.FIND_MAX_IN_COL`. -/
  | columnMaximum (oval : Val) (orow : Nat)
  /-- `OVAL` of `RM.READ`. -/
  | value (oval : Val)
  /-- `ODUMP` of `RM.DUMP`. -/
  | dump (odump : List Val)
deriving DecidableEq, Repr

/-- The response of an operation (R74). When the status is not `ok` the result is `none`. -/
structure Response where
  status : Status
  result : Result
deriving DecidableEq, Repr

/-- What the host does next: present a command at the port of its unit (R71, R76), or apply the reset input
between two operations (70_reset_and_hazards.md R190, R207). -/
inductive HostInput where
  | command (c : Command)
  | reset
deriving DecidableEq, Repr

/-- The state of the unit `ENC` (10_state.md section 1). -/
structure EncUnit where
  /-- `enc_configured` (R20). -/
  configured : Bool
  /-- `constraints[0..K-1]` (R24). -/
  constraints : List Nat
  /-- `n`, the output bits per symbol (R25). -/
  n : Nat
  /-- `m`, the maximum constraint (R26). -/
  m : Nat
  /-- `genpoly[0..K-1][0..n-1]` (R27). -/
  genpoly : List (List Nat)
  /-- `reg[0..K-1]` (R21). -/
  reg : List Nat
deriving DecidableEq, Repr

/-- The state of the unit `RM` (10_state.md section 2). -/
structure RmUnit where
  /-- `rm_configured` (R29). -/
  configured : Bool
  /-- `nb_symbols_log2` (R31). -/
  nbSymbolsLog2 : Nat
  /-- `message_length`, `L` (R31). -/
  messageLength : Nat
  /-- `matrix` (R32). -/
  matrix : Memory
  /-- `message_symbol_count`, the cursor (R33). -/
  messageSymbolCount : Nat
deriving DecidableEq, Repr

/-- The whole machine: the two units, and four fields of the model's own. -/
structure State where
  /-- The synthesis parameters (00_scope.md R4, R7, R8): no step writes them. Log 1. -/
  params : Params
  enc : EncUnit
  rm : RmUnit
  /-- The inputs the host is going to give, oldest first (70_reset_and_hazards.md R206). Log 11. -/
  inputs : List HostInput
  /-- The response ports: the response to the last operation (30_encoding.md R74). No operation reads it.
  Log 10. -/
  response : Option Response
  /-- How many free values have been drawn. Log 15. -/
  draws : Nat
deriving DecidableEq, Repr

/-- The reasons the machine stops with a fault: none. Every operation is answered (30_encoding.md R71,
70_reset_and_hazards.md R207), and an exception is an answer (60_exceptions.md R170), so nobody raises one;
that is exact. -/
inductive Fault
deriving DecidableEq, Repr

/-- The reasons the model refuses. -/
inductive Refusal where
  /-- Raised by an arm of `exec` whose operation has no meaning in the model yet; safe. No arm raises it. -/
  | notModelled (mnemonic : String)
deriving DecidableEq, Repr

/-- `ENC` after reset (R190): unconfigured. The other values are unspecified there and unobservable; these
are DESIGN CHOICE, log 13. -/
def EncUnit.reset (p : Params) : EncUnit :=
  { configured := false
    constraints := List.replicate p.k 0
    n := 0
    m := 0
    genpoly := List.replicate p.k []
    reg := List.replicate p.k 0 }

/-- `RM` after reset (R190): unconfigured. The other values are unspecified there and unobservable; these
are DESIGN CHOICE, log 13. -/
def RmUnit.reset : RmUnit :=
  { configured := false, nbSymbolsLog2 := 0, messageLength := 0, matrix := [], messageSymbolCount := 0 }

/-- The machine right after reset, for any synthesis parameters. -/
def State.resetWith (p : Params) : State :=
  { params := p, enc := EncUnit.reset p, rm := RmUnit.reset, inputs := [], response := none, draws := 0 }

/-- The machine right after reset, for the parameters of the spec's test vectors (log 1). -/
def State.reset : State := State.resetWith Params.standard

end Sys2Proof.Machine
end

