-- ==== Sys2Proof/Machine/Flags.lean ====
section
/-!
DEFINITION. The hardware has no flags and no condition codes (10_state.md R36); the closest thing is the status
of a response. This file gives `STATUS[2:0]` and `CAUSE[2:0]` their numbers (30_encoding.md R74, R75,
40_encoder_ops.md R101).
-/

namespace Sys2Proof.Machine

/-- The cause codes 1 to 6 (40_encoder_ops.md R101). -/
def Cause.code : Cause → BitVec 3
  | .constraintCount => 1
  | .inputsExceedSymbol => 2
  | .generatorCount => 3
  | .constraintExceedsRegister => 4
  | .outputsNotAboveInputs => 5
  | .outputsExceedSymbol => 6

/-- `STATUS[2:0]` (30_encoding.md R75). -/
def Status.code : Status → BitVec 3
  | .ok => 0
  | .errConfig _ => 1
  | .errNotConfigured => 2
  | .errIllegal => 3
  | .errAlreadyConfigured => 4
  | .errCapacity => 5

/-- `CAUSE[2:0]`: zero unless the status is `ERR_CONFIG` (30_encoding.md R74). -/
def Status.causeCode : Status → BitVec 3
  | .ok => 0
  | .errConfig c => Cause.code c
  | .errNotConfigured => 0
  | .errIllegal => 0
  | .errAlreadyConfigured => 0
  | .errCapacity => 0

end Sys2Proof.Machine
end

