-- ==== Sys2Proof/Machine/Numeric.lean ====
section
/-!
DEFINITION. The interface of `Val` (00_scope.md R12, 42_matrix_transform_ops.md R146): `vadd`, `vdiv` and the
comparisons `vlt`, `vle`, `veq`.
-/

namespace Sys2Proof

/-- The sum of two finite values in a numeric format. A rounding format's sum is uninterpreted up to the laws of
R12: adding zero changes nothing, and any other sum is positive. DESIGN CHOICE, log 5. -/
def Numeric.sum : Numeric → Rat → Rat → Rat
  | .exact, x, y => x + y
  | .rounding k, x, y =>
    if y = 0 then x
    else if 0 < Config.roundedSum k x y then Config.roundedSum k x y
    else x + y

/-- The quotient of two finite values in a numeric format, used only with a non-zero divisor. A rounding format's
quotient is uninterpreted up to the laws of R12: zero divided is zero, and no quotient is negative.
DESIGN CHOICE, log 5. -/
def Numeric.quotient : Numeric → Rat → Rat → Rat
  | .exact, x, y => x / y
  | .rounding k, x, y =>
    if x = 0 then 0
    else if 0 ≤ Config.roundedQuotient k x y then Config.roundedQuotient k x y
    else x / y

/-- The admitted values: non-negative and finite (00_scope.md R12). -/
def Val.admitted : Val → Bool
  | .fin q => decide (0 ≤ q)
  | .posInf => false
  | .negInf => false
  | .negZero => false
  | .nan _ => false

/-- Where a value that can be compared lies: below all finite values, among them, or above them; negative zero
lies at zero. A not-a-number lies nowhere. PRESUMED for the values that are not admitted, log 8. -/
def Val.place : Val → Option (Int × Rat)
  | .fin q => some (0, q)
  | .posInf => some (1, 0)
  | .negInf => some (-1, 0)
  | .negZero => some (0, 0)
  | .nan _ => none

/-- The bound of a column search can be compared (43_matrix_read_ops.md R154; U5 leaves out a not-a-number). -/
def Val.comparable (v : Val) : Bool := (Val.place v).isSome

end Sys2Proof

namespace Sys2Proof.Machine

/-- `vadd` (R12). -/
def vadd (f : Numeric) (a b : Val) : Val :=
  match a, b with
  | .fin x, .fin y => .fin (Numeric.sum f x y)
  | a, b => Config.sumOutside a b

/-- `vdiv` (R12), used only with a divisor that is not `vzero`. -/
def vdiv (f : Numeric) (a b : Val) : Val :=
  match a, b with
  | .fin x, .fin y => .fin (Numeric.quotient f x y)
  | a, b => Config.quotientOutside a b

/-- `vlt`, strictly less (R12). -/
def vlt (a b : Val) : Bool :=
  match Val.place a, Val.place b with
  | some (i, x), some (j, y) => decide (i < j) || (decide (i = j) && decide (x < y))
  | _, _ => false

/-- `vle`, less or equal (R12). -/
def vle (a b : Val) : Bool :=
  match Val.place a, Val.place b with
  | some (i, x), some (j, y) => decide (i < j) || (decide (i = j) && decide (x ≤ y))
  | _, _ => false

/-- `veq`, equal (R12). -/
def veq (a b : Val) : Bool :=
  match Val.place a, Val.place b with
  | some (i, x), some (j, y) => decide (i = j) && decide (x = y)
  | _, _ => false

end Sys2Proof.Machine
end

