-- ==== Sys2Proof/Machine/Operands.lean ====
section
/-!
DEFINITION. The integer primitives of 00_scope.md R10 and 40_encoder_ops.md R111 on words and indices, and the
bits of the operands. Everything is on unsigned numbers; no operation of the hardware is signed (R9).
-/

namespace Sys2Proof.Machine

/-- `a << s` on a `w`-bit value (R10). The spec's decision D7: the bits shifted past the top are lost. -/
def shiftLeft (w : Nat) (a : Nat) (s : Nat) : Nat := (a * 2 ^ s) % 2 ^ w

/-- `a >> s`, the logical right shift (R10). The spec's decision D6. -/
def shiftRight (a : Nat) (s : Nat) : Nat := a / 2 ^ s

/-- The number whose bit `b` is `f b` for `b < w`, and which has no other bit. -/
def ofBits : Nat → (Nat → Bool) → Nat
  | 0, _ => 0
  | w + 1, f => ofBits w f + (if f w then 2 ^ w else 0)

/-- `popcount` of a `w`-bit word (R10). -/
def popcount : Nat → Nat → Nat
  | 0, _ => 0
  | w + 1, a => popcount w a + (if a.testBit w then 1 else 0)

/-- `parity(a) = popcount(a) mod 2` of a `w`-bit word (R10). -/
def parity (w : Nat) (a : Nat) : Bool := decide (popcount w a % 2 = 1)

/-- `bitrev(i, w)`: the `w`-bit number whose bit `b` equals bit `w-1-b` of `i` (R10). -/
def bitrev (i w : Nat) : Nat := ofBits w (fun b => i.testBit (w - 1 - b))

/-- `clog2(x)` for `x ≥ 1`: the least `c` with `2^c ≥ x` (R10, D30: on integers). Never evaluated at 0. -/
def clog2 (x : Nat) : Nat := ((List.range (x + 1)).find? (fun c => decide (x ≤ 2 ^ c))).getD 0

/-- Bit `j` of an input symbol (30_encoding.md R79 (a)). -/
def symbolBit (sym : Nat) (j : Nat) : Bool := sym.testBit j

/-- A bit as a word, `zext(b)`. -/
def bitWord (b : Bool) : Nat := if b then 1 else 0

/-- `min` over a list of lengths (R111 (b)); the list is non-empty wherever the hardware uses it. -/
def minLength (rows : List (List Nat)) : Nat := (rows.map List.length).min?.getD 0

/-- `max` over a list of naturals (R111 (b)); the list is non-empty wherever the hardware uses it. -/
def maxOf (l : List Nat) : Nat := l.max?.getD 0

end Sys2Proof.Machine
end

