-- ==== Sys2Proof/Machine/Ops.lean ====
section
/-!
DEFINITION. The shared operations: the store of `RM`, the registers of `ENC`, the response of an operation,
raising an exception, the prologue checks, the reset input and the inputs of the host.
-/

namespace Sys2Proof.Machine

/-! ### The store of `RM` (20_memory.md) -/

/-- The element at an address; an element that is not listed reads as `vzero`. -/
def Memory.read : Memory → Nat → Val
  | [], _ => vzero
  | (b, v) :: rest, a => if a = b then v else Memory.read rest a

/-- Write one element, keeping the canonical form. -/
def Memory.write : Memory → Nat → Val → Memory
  | [], a, v => if v = vzero then [] else [(a, v)]
  | (b, w) :: rest, a, v =>
    if a < b then (if v = vzero then (b, w) :: rest else (a, v) :: (b, w) :: rest)
    else if a = b then (if v = vzero then rest else (a, v) :: rest)
    else (b, w) :: Memory.write rest a v

/-- `MemRead(a, n)` (00_scope.md R11): the `n` consecutive elements from address `a`. -/
def memRead (mem : Memory) (a n : Nat) : List Val :=
  (List.range n).map (fun i => Memory.read mem (a + i))

/-- `MemWrite(a, n, v)` (R11), `n` the length of the list: its values to the consecutive addresses from `a`. -/
def memWrite (mem : Memory) (a : Nat) : List Val → Memory
  | [] => mem
  | v :: vs => memWrite (Memory.write mem a v) (a + 1) vs

/-- The canonical memory that reads as `f a` at every address `a < n` and as `vzero` elsewhere: one pass over
the whole store (R56: the transforms are atomic over it). -/
def Memory.tabulate (n : Nat) (f : Nat → Val) : Memory :=
  (List.range n).filterMap (fun a => if f a = vzero then none else some (a, f a))

/-- The canonical form: addresses strictly rising, no entry equal to what an unlisted element reads as. -/
abbrev Memory.wf (mem : Memory) : Prop :=
  mem.Pairwise (fun x y => x.1 < y.1) ∧ ∀ x ∈ mem, x.2 ≠ vzero

/-- Every entry of the store is an admitted value (41_matrix_write_ops.md R127; an unlisted element is `vzero`,
which is admitted). -/
def Memory.allAdmitted (mem : Memory) : Bool := mem.all (fun x => x.2.admitted)

/-! ### The unit `RM` -/

/-- `S = 2^nb_symbols_log2` (10_state.md R31). -/
def RmUnit.nbSymbols (u : RmUnit) : Nat := 2 ^ u.nbSymbolsLog2

/-- The element address of position `p` and candidate `c`, `p * S + c` (20_memory.md R51). -/
def RmUnit.address (u : RmUnit) (p c : Nat) : Nat := p * u.nbSymbols + c

/-- `M[p][c]`, read (00_scope.md R11). -/
def RmUnit.entry (u : RmUnit) (p c : Nat) : Val := Memory.read u.matrix (u.address p c)

/-- How many elements the store has, `L * S` (20_memory.md R50). -/
def RmUnit.size (u : RmUnit) : Nat := u.messageLength * u.nbSymbols

/-- Write one column, `MemWrite(p*S, S, vals)`, if the position exists; otherwise nothing at all
(20_memory.md R55, 41_matrix_write_ops.md R129). -/
def RmUnit.writeColumn (u : RmUnit) (p : Nat) (vals : List Val) : RmUnit :=
  if p < u.messageLength then { u with matrix := memWrite u.matrix (u.address p 0) vals } else u

/-- Write one column at the cursor and advance it, if the cursor is below `L`; otherwise nothing at all
(41_matrix_write_ops.md R122, R124, R129). -/
def RmUnit.appendColumn (u : RmUnit) (vals : List Val) : RmUnit :=
  if u.messageSymbolCount < u.messageLength then
    { u.writeColumn u.messageSymbolCount vals with messageSymbolCount := u.messageSymbolCount + 1 }
  else u

/-! ### The unit `ENC` -/

/-- `reg[j]`, read (00_scope.md R11). -/
def EncUnit.readReg (u : EncUnit) (j : Nat) : Nat := u.reg.getD j 0

/-- The `k` registers in order (40_encoder_ops.md R107). -/
def EncUnit.readRegs (u : EncUnit) (k : Nat) : List Nat := (List.range k).map u.readReg

/-- `reg[j] <- f j` for each `j` in `0 .. k-1`, all at once. -/
def EncUnit.writeRegs (u : EncUnit) (k : Nat) (f : Nat → Nat) : EncUnit :=
  { u with reg := (List.range k).map f }

/-- `genpoly[j][i]`, read (10_state.md R27). -/
def EncUnit.mask (u : EncUnit) (j i : Nat) : Nat := (u.genpoly.getD j []).getD i 0

/-! ### Responses and exceptions (60_exceptions.md) -/

/-- `respond(x)`: the operation ends with status `OK` and result `x` (00_scope.md R11). -/
def respond (r : Result) (s : State) : Host.Outcome State Fault Refusal :=
  .next { s with response := some { status := .ok, result := r } }

/-- `raise`: taking an exception (60_exceptions.md R170). The operation stops, no state of either unit changes,
and the response carries the status. There is no handler to go to and nothing is saved (R180), so there is no
return from an exception either (R181). -/
def raise (st : Status) (s : State) : Host.Outcome State Fault Refusal :=
  .next { s with response := some { status := st, result := .none } }

/-- Step 2 of the checks of R177 for an operation of `ENC` other than `ENC.CONFIG`. -/
def whenEncConfigured (s : State) (run : Host.Outcome State Fault Refusal) : Host.Outcome State Fault Refusal :=
  if s.enc.configured then run else raise .errNotConfigured s

/-- Step 2 of the checks of R177 for an operation of `RM` other than `RM.CONFIG`. -/
def whenRmConfigured (s : State) (run : Host.Outcome State Fault Refusal) : Host.Outcome State Fault Refusal :=
  if s.rm.configured then run else raise .errNotConfigured s

/-- Step 3 of the checks of R177: a list operand has its length (30_encoding.md R78). -/
def whenShaped (ok : Bool) (s : State) (run : Host.Outcome State Fault Refusal) :
    Host.Outcome State Fault Refusal :=
  if ok then run else raise .errIllegal s

/-- The state with other contents of `ENC`. -/
def State.withEnc (s : State) (u : EncUnit) : State := { s with enc := u }

/-- The state with other contents of `RM`. -/
def State.withRm (s : State) (u : RmUnit) : State := { s with rm := u }

/-- The state after drawing `n` free values. -/
def State.drawn (s : State) (n : Nat) : State := { s with draws := s.draws + n }

/-- A free index on a result port of `W_IDX` bits (30_encoding.md R74). -/
def freeIndexPort (p : Params) (k : Nat) : Nat := natOnPort p.wIdx (Config.freeIndex k)

/-! ### Inputs of the host -/

/-- The state when the host's inputs are those left. -/
def State.withInputs (s : State) (rest : List HostInput) : State := { s with inputs := rest }

/-- The reset input (70_reset_and_hazards.md R190): both units become unconfigured. Their other contents are
unspecified; they take the values of `State.reset` (log 13, log 14). Reset is no operation and has no
response. -/
def applyReset (s : State) : Host.Outcome State Fault Refusal :=
  .next { s with enc := EncUnit.reset s.params, rm := RmUnit.reset, response := none }

/-- A reserved opcode is answered with `ERR_ILLEGAL`, before any other check (30_encoding.md R77,
60_exceptions.md R177). -/
def takeIllegal (e : DecodeError) (s : State) : Host.Outcome State Fault Refusal :=
  match e with
  | .reservedOpcode _ => raise .errIllegal s

/-- The command that presents the operation of an opcode-table word, with operand ports of zeros. -/
def tableCommand (w : Nat) : Command := { op := BitVec.ofNat 8 w }

/-- The host issues a command before everything else it was going to do. -/
def State.issue (s : State) (c : Command) : State := { s with inputs := .command c :: s.inputs }

end Sys2Proof.Machine
end

