-- ==== Sys2Proof/Machine/Encoder.lean ====
section
/-!
DEFINITION. The operations of the unit `ENC` (40_encoder_ops.md).
-/

namespace Sys2Proof.Machine

/-- The construction checks of R101, in its order; the first that holds is reported (60_exceptions.md R178, the
spec's decision D16). -/
def configCause (p : Params) (cons : List Nat) (gpoly : List (List Nat)) : Option Cause :=
  if cons.length ≠ p.k then some .constraintCount
  else if p.wS < p.k then some .inputsExceedSymbol
  else if gpoly.length ≠ p.k then some .generatorCount
  else if cons.any (fun c => decide (p.wR < c)) then some .constraintExceedsRegister
  else if minLength gpoly ≤ p.k then some .outputsNotAboveInputs
  else if p.wS < minLength gpoly then some .outputsExceedSymbol
  else none

/-- The encoder a construction that passes its checks builds (R100). -/
def EncUnit.construct (p : Params) (cons : List Nat) (gpoly : List (List Nat)) : EncUnit :=
  { configured := true
    constraints := cons
    n := minLength gpoly
    m := maxOf cons
    genpoly := gpoly.map (List.take (minLength gpoly))
    reg := List.replicate p.k 0 }

/-- `ENC.CONFIG CONS, GPOLY` (R100, R101). -/
def execEncConfig (cons : List Nat) (gpoly : List (List Nat)) (s : State) :
    Host.Outcome State Fault Refusal :=
  if s.enc.configured then raise .errAlreadyConfigured s
  else match configCause s.params cons gpoly with
    | some c => raise (.errConfig c) s
    | none => respond .none (s.withEnc (EncUnit.construct s.params cons gpoly))

/-- The new contents of a `w`-bit register when a bit is inserted (R102, R103): with `no_step` the register is
first shifted right, then in both cases shifted left with the bit put in place 0. -/
def insertBit (w : Nat) (flag : Bool) (b : Bool) (r : Nat) : Nat :=
  shiftLeft w (if flag then shiftRight r 1 else r) 1 ||| bitWord b

/-- The register update of `ENC.ENCODE` (R103): register `j` takes bit `j` of the symbol. -/
def EncUnit.shiftIn (u : EncUnit) (p : Params) (sym : Nat) (flag : Bool) : EncUnit :=
  u.writeRegs p.k (fun j => insertBit p.wR flag (symbolBit sym j) (u.readReg j))

/-- Output bit `i` (R104): the XOR over the `k` inputs of the parity of the register ANDed with its mask. -/
def EncUnit.outputBit (u : EncUnit) (w : Nat) (i : Nat) : Nat → Bool
  | 0 => false
  | k + 1 => xor (EncUnit.outputBit u w i k) (parity w (u.readReg k &&& u.mask k i))

/-- The output symbol (R104): output bit `i` at position `i` for `i < n`, zero above (the spec's decision
D18). -/
def EncUnit.outputSymbol (u : EncUnit) (p : Params) : Nat :=
  ofBits u.n (fun i => u.outputBit p.wR i p.k)

/-- `ENC.ENCODE SYM, FLAG` (R102): the registers first, then the output symbol from the updated registers. -/
def execEncEncode (sym : Nat) (flag : Bool) (s : State) : Host.Outcome State Fault Refusal :=
  whenEncConfigured s
    (respond (.symbol ((s.enc.shiftIn s.params sym flag).outputSymbol s.params))
      (s.withEnc (s.enc.shiftIn s.params sym flag)))

/-- `ENC.CLEAR` (R106). -/
def execEncClear (s : State) : Host.Outcome State Fault Refusal :=
  whenEncConfigured s (respond .none (s.withEnc (s.enc.writeRegs s.params.k (fun _ => 0))))

/-- `ENC.GET_REGISTERS` (R107). -/
def execEncGetRegisters (s : State) : Host.Outcome State Fault Refusal :=
  whenEncConfigured s (respond (.registers (s.enc.readRegs s.params.k)) s)

/-- `ENC.SET_REGISTERS REGS` (R108). -/
def execEncSetRegisters (regs : List Nat) (s : State) : Host.Outcome State Fault Refusal :=
  whenEncConfigured s
    (whenShaped (decide (regs.length = s.params.k)) s
      (respond .none (s.withEnc (s.enc.writeRegs s.params.k (fun j => regs.getD j 0)))))

/-- `ENC.INFO` (R109). -/
def execEncInfo (s : State) : Host.Outcome State Fault Refusal :=
  whenEncConfigured s
    (respond (.info s.params.k s.enc.n s.enc.m s.enc.constraints s.enc.genpoly) s)

end Sys2Proof.Machine
end

