-- ==== Sys2Proof/Machine/MatrixRead.lean ====
section
/-!
DEFINITION. The read operations of the unit `RM` (43_matrix_read_ops.md). None of them changes the unit
(20_memory.md R57).
-/

namespace Sys2Proof.Machine

/-- The scan order (R150): ascending position, inside one position ascending candidate (the spec's decision
D33). -/
def scanOrder (positions candidates : Nat) : List (Nat × Nat) :=
  (List.range positions).flatMap (fun p => (List.range candidates).map (fun c => (p, c)))

/-- One comparison of `RM.FIND_MAX` (R151): running maximum, its candidate (row), its position (column). -/
def RmUnit.maxStep (u : RmUnit) (acc : Val × Nat × Nat) (pc : Nat × Nat) : Val × Nat × Nat :=
  if vlt vzero (u.entry pc.1 pc.2) && vle acc.1 (u.entry pc.1 pc.2) then (u.entry pc.1 pc.2, pc.2, pc.1)
  else acc

/-- The global search (R151): value, candidate, position. -/
def RmUnit.findMax (u : RmUnit) : Val × Nat × Nat :=
  (scanOrder u.messageLength u.nbSymbols).foldl u.maxStep (vzero, 0, 0)

/-- `RM.FIND_MAX` (R151). On a store with an entry that is not admitted the results are free values (log 6). -/
def execRmFindMax (s : State) : Host.Outcome State Fault Refusal :=
  whenRmConfigured s
    (if Memory.allAdmitted s.rm.matrix then
      respond (.maximum s.rm.findMax.1 s.rm.findMax.2.1 s.rm.findMax.2.2) s
    else
      respond
        (.maximum (Config.freeVal s.draws) (freeIndexPort s.params s.draws)
          (freeIndexPort s.params (s.draws + 1)))
        (s.drawn 2))

/-- One comparison of `RM.FIND_MAX_IN_COL` (R154): running maximum and its candidate. -/
def RmUnit.columnMaxStep (u : RmUnit) (p : Nat) (bound : Val) (acc : Val × Nat) (c : Nat) : Val × Nat :=
  if vlt vzero (u.entry p c) && vlt (u.entry p c) bound && vle acc.1 (u.entry p c) then (u.entry p c, c)
  else acc

/-- The search of one column below a bound (R154); a column that does not exist is empty (R155). -/
def RmUnit.findMaxInCol (u : RmUnit) (p : Nat) (bound : Val) : Val × Nat :=
  if p < u.messageLength then (List.range u.nbSymbols).foldl (u.columnMaxStep p bound) (vzero, 0)
  else (vzero, 0)

/-- `RM.FIND_MAX_IN_COL IDX, VAL` (R154, R155). On a store with an entry that is not admitted, or with a bound
that cannot be compared, the results are free values (log 6, log 8). -/
def execRmFindMaxInCol (idx : Nat) (val : Val) (s : State) : Host.Outcome State Fault Refusal :=
  whenRmConfigured s
    (if Memory.allAdmitted s.rm.matrix && Val.comparable val then
      respond (.columnMaximum (s.rm.findMaxInCol idx val).1 (s.rm.findMaxInCol idx val).2) s
    else
      respond (.columnMaximum (Config.freeVal s.draws) (freeIndexPort s.params s.draws)) (s.drawn 1))

/-- `RM.READ IDX2, IDX` (R157): the entry as stored; outside the store a free value, the state of the unit
unchanged and status `OK` (R158). -/
def execRmRead (idx2 idx : Nat) (s : State) : Host.Outcome State Fault Refusal :=
  whenRmConfigured s
    (if idx < s.rm.messageLength ∧ idx2 < s.rm.nbSymbols then
      respond (.value (s.rm.entry idx idx2)) s
    else respond (.value (Config.freeVal s.draws)) (s.drawn 1))

/-- All entries in transposed order (R159): candidate by candidate, inside one candidate ascending position. -/
def RmUnit.dump (u : RmUnit) : List Val :=
  (List.range u.nbSymbols).flatMap (fun c => (List.range u.messageLength).map (fun p => u.entry p c))

/-- `RM.DUMP` (R159). -/
def execRmDump (s : State) : Host.Outcome State Fault Refusal :=
  whenRmConfigured s (respond (.dump s.rm.dump) s)

end Sys2Proof.Machine
end

