-- ==== Sys2Proof/Machine/MatrixTransform.lean ====
section
/-!
DEFINITION. The in-place transforms of the unit `RM` (42_matrix_transform_ops.md).
-/

namespace Sys2Proof.Machine

/-- The sum of a column (R140): from `vzero`, in ascending candidate order (the spec's decision D29). -/
def RmUnit.columnSum (u : RmUnit) (f : Numeric) (p : Nat) : Val :=
  (List.range u.nbSymbols).foldl (fun s c => vadd f s (u.entry p c)) vzero

/-- The entry of position `p` and candidate `c` after normalisation (R140): divided by the sum of its own column,
unless that sum is `vzero`. -/
def RmUnit.normalizedEntry (u : RmUnit) (f : Numeric) (p c : Nat) : Val :=
  if veq (u.columnSum f p) vzero then u.entry p c else vdiv f (u.entry p c) (u.columnSum f p)

/-- The whole store rewritten: `g p c` at every position and candidate. -/
def RmUnit.rewrite (u : RmUnit) (g : Nat → Nat → Val) : RmUnit :=
  { u with matrix := Memory.tabulate u.size (fun a => g (a / u.nbSymbols) (a % u.nbSymbols)) }

/-- The store after normalisation (R140): all positions, each divided by its own pre-division sum. -/
def RmUnit.normalized (u : RmUnit) (f : Numeric) : RmUnit := u.rewrite (u.normalizedEntry f)

/-- The store with free values everywhere: what is known of it after a normalisation the spec gives no result
for (41_matrix_write_ops.md R127, U5). Log 6. -/
def RmUnit.scrambled (u : RmUnit) (draws : Nat) : RmUnit :=
  { u with matrix := Memory.tabulate u.size (fun a => Config.freeVal (draws + a)) }

/-- `RM.NORMALIZE` (R140). On a store with an entry that is not admitted, the operation ends as it always does and
the entries are free values (log 6). -/
def execRmNormalize (s : State) : Host.Outcome State Fault Refusal :=
  whenRmConfigured s
    (if Memory.allAdmitted s.rm.matrix then
      respond .none (s.withRm (s.rm.normalized s.params.numeric))
    else respond .none ((s.withRm (s.rm.scrambled s.draws)).drawn s.rm.size))

/-- The source columns of `RM.DEINTERLEAVE` in the order of their destinations (R143): the bit reversals, within
`clog2(L) + 1` bits, of the ascending raw indices, those below `L` kept, until `L` are found. Nothing for
`L = 0` (the spec's decision D28). -/
def deinterleaveSources (len : Nat) : List Nat :=
  if len = 0 then []
  else
    (((List.range (2 ^ (clog2 len + 1))).map (fun i => bitrev i (clog2 len + 1))).filter
      (fun r => decide (r < len))).take len

/-- The old column that becomes new column `d` (R143, R144). -/
def deinterleaveSource (len d : Nat) : Nat := (deinterleaveSources len).getD d 0

/-- The store after deinterleaving (R143): every column copied from the store as it was before. -/
def RmUnit.deinterleaved (u : RmUnit) : RmUnit :=
  u.rewrite (fun d c => u.entry (deinterleaveSource u.messageLength d) c)

/-- `RM.DEINTERLEAVE` (R143). -/
def execRmDeinterleave (s : State) : Host.Outcome State Fault Refusal :=
  whenRmConfigured s (respond .none (s.withRm s.rm.deinterleaved))

end Sys2Proof.Machine
end

