-- ==== Sys2Proof/Machine/MatrixWrite.lean ====
section
/-!
DEFINITION. The construction and write operations of the unit `RM` (41_matrix_write_ops.md). A write outside the
store is ignored with status `OK` (60_exceptions.md R172): that is `RmUnit.writeColumn` and
`RmUnit.appendColumn` of Ops.lean.
-/

namespace Sys2Proof.Machine

/-- The store asked for is larger than `RM_CAP` (60_exceptions.md R176, the spec's decision D12); an unbounded
capacity is never exceeded (R121). -/
def exceedsCapacity (cap : Option Nat) (log2 len : Nat) : Bool :=
  match cap with
  | none => false
  | some c => decide (c < 2 ^ log2 * len)

/-- The matrix a successful `RM.CONFIG` builds (R120): every entry `vzero`, the cursor 0. -/
def RmUnit.construct (log2 len : Nat) : RmUnit :=
  { configured := true, nbSymbolsLog2 := log2, messageLength := len, matrix := [], messageSymbolCount := 0 }

/-- `RM.CONFIG LOG2, LEN` (R120). -/
def execRmConfig (log2 len : Nat) (s : State) : Host.Outcome State Fault Refusal :=
  if s.rm.configured then raise .errAlreadyConfigured s
  else if exceedsCapacity s.params.rmCap log2 len then raise .errCapacity s
  else respond .none (s.withRm (RmUnit.construct log2 len))

/-- `RM.ENTER_SYMBOL VALS` (R122). -/
def execRmEnterSymbol (vals : List Val) (s : State) : Host.Outcome State Fault Refusal :=
  whenRmConfigured s
    (whenShaped (decide (vals.length = s.rm.nbSymbols)) s
      (respond .none (s.withRm (s.rm.appendColumn vals))))

/-- `RM.ENTER_SYMBOL_AT IDX, VALS` (R123). -/
def execRmEnterSymbolAt (idx : Nat) (vals : List Val) (s : State) : Host.Outcome State Fault Refusal :=
  whenRmConfigured s
    (whenShaped (decide (vals.length = s.rm.nbSymbols)) s
      (respond .none (s.withRm (s.rm.writeColumn idx vals))))

/-- `RM.ENTER_ERASURE` (R124). -/
def execRmEnterErasure (s : State) : Host.Outcome State Fault Refusal :=
  whenRmConfigured s
    (respond .none (s.withRm (s.rm.appendColumn (List.replicate s.rm.nbSymbols vzero))))

/-- `RM.ENTER_ERASURE_AT IDX` (R125). -/
def execRmEnterErasureAt (idx : Nat) (s : State) : Host.Outcome State Fault Refusal :=
  whenRmConfigured s
    (respond .none (s.withRm (s.rm.writeColumn idx (List.replicate s.rm.nbSymbols vzero))))

end Sys2Proof.Machine
end

