-- ==== Sys2Proof/Machine/Dispatch.lean ====
section
/-!
DEFINITION. The dispatch of a decoded operation to its meaning, one arm per row of 30_encoding.md R70.
-/

namespace Sys2Proof.Machine

/-- One operation: its decoded form, on the state in which the host issues it. -/
def exec (i : Instr) (s : State) : Host.Outcome State Fault Refusal :=
  match i with
  | .encConfig cons gpoly => Sys2Proof.Machine.execEncConfig cons gpoly s
  | .encEncode sym flag => Sys2Proof.Machine.execEncEncode sym flag s
  | .encClear => Sys2Proof.Machine.execEncClear s
  | .encGetRegisters => Sys2Proof.Machine.execEncGetRegisters s
  | .encSetRegisters regs => Sys2Proof.Machine.execEncSetRegisters regs s
  | .encInfo => Sys2Proof.Machine.execEncInfo s
  | .rmConfig log2 len => Sys2Proof.Machine.execRmConfig log2 len s
  | .rmEnterSymbol vals => Sys2Proof.Machine.execRmEnterSymbol vals s
  | .rmEnterSymbolAt idx vals => Sys2Proof.Machine.execRmEnterSymbolAt idx vals s
  | .rmEnterErasure => Sys2Proof.Machine.execRmEnterErasure s
  | .rmEnterErasureAt idx => Sys2Proof.Machine.execRmEnterErasureAt idx s
  | .rmNormalize => Sys2Proof.Machine.execRmNormalize s
  | .rmDeinterleave => Sys2Proof.Machine.execRmDeinterleave s
  | .rmFindMax => Sys2Proof.Machine.execRmFindMax s
  | .rmFindMaxInCol idx val => Sys2Proof.Machine.execRmFindMaxInCol idx val s
  | .rmRead idx2 idx => Sys2Proof.Machine.execRmRead idx2 idx s
  | .rmDump => Sys2Proof.Machine.execRmDump s

end Sys2Proof.Machine
end

