-- ==== Sys2Proof/Machine/Step.lean ====
section
/-!
DEFINITION. One step of the machine: the next input of the host. There is no program counter and no instruction
memory (10_state.md R30); what runs next is what the host issues next.
-/

namespace Sys2Proof.Machine

/-- One step. With no input the units are idle and keep all their state (60_exceptions.md R188,
70_reset_and_hazards.md R206). A command is decoded from the opcode and the ports, and its operation runs; a
reserved opcode is answered as R77 says; reset falls between operations (R207). -/
def step (s : State) : Host.Outcome State Fault Refusal :=
  match s.inputs with
  | [] => .next s
  | .reset :: rest => applyReset (s.withInputs rest)
  | .command c :: rest =>
    match decode s.params c.op c.ports with
    | .ok i => exec i (s.withInputs rest)
    | .error e => takeIllegal e (s.withInputs rest)

/-- The state in which the host's next input is the command of an opcode-table word, its operand ports zero. A
word that is not one byte is no command, and changes nothing (log 11, log 19). -/
def State.withFetchWord (s : State) (nbits w : Nat) : State :=
  if nbits = 8 ∧ w < 256 then s.issue (tableCommand w) else s

end Sys2Proof.Machine
end

