-- ==== Sys2Proof/Machine/Assembler.lean ====
section
/-!
DEFINITION. The spelling of an operation in the assembler of 30_encoding.md R81 and of an encoded operation. No
rule of the machine depends on it (92_eei_decisions.md D27).
-/

namespace Sys2Proof.Machine

/-- A list in square brackets. -/
def spellList (sep : String) (l : List String) : String := "[" ++ String.intercalate sep l ++ "]"

/-- A value: a number or a fraction `a/b` (R81). The spelling of a value that is not finite is DESIGN CHOICE,
log 18. -/
def spellVal : Val → String
  | .fin q => if q.den = 1 then toString q.num else toString q.num ++ "/" ++ toString q.den
  | .posInf => "+inf"
  | .negInf => "-inf"
  | .negZero => "-0"
  | .nan payload => "nan:" ++ toString payload

/-- A bit. -/
def spellBit (b : Bool) : String := if b then "1" else "0"

/-- A list of naturals in decimal. -/
def spellNats (l : List Nat) : String := spellList ", " (l.map toString)

/-- A list of values. -/
def spellVals (l : List Val) : String := spellList ", " (l.map spellVal)

/-- An operation: its mnemonic and its operands in the order of R70, separated by commas. -/
def spell : Instr → String
  | .encConfig cons gpoly => "ENC.CONFIG " ++ spellNats cons ++ ", " ++ spellList ", " (gpoly.map spellNats)
  | .encEncode sym flag => "ENC.ENCODE " ++ toString sym ++ ", " ++ spellBit flag
  | .encClear => "ENC.CLEAR"
  | .encGetRegisters => "ENC.GET_REGISTERS"
  | .encSetRegisters regs => "ENC.SET_REGISTERS " ++ spellNats regs
  | .encInfo => "ENC.INFO"
  | .rmConfig log2 len => "RM.CONFIG " ++ toString log2 ++ ", " ++ toString len
  | .rmEnterSymbol vals => "RM.ENTER_SYMBOL " ++ spellVals vals
  | .rmEnterSymbolAt idx vals => "RM.ENTER_SYMBOL_AT " ++ toString idx ++ ", " ++ spellVals vals
  | .rmEnterErasure => "RM.ENTER_ERASURE"
  | .rmEnterErasureAt idx => "RM.ENTER_ERASURE_AT " ++ toString idx
  | .rmNormalize => "RM.NORMALIZE"
  | .rmDeinterleave => "RM.DEINTERLEAVE"
  | .rmFindMax => "RM.FIND_MAX"
  | .rmFindMaxInCol idx val => "RM.FIND_MAX_IN_COL " ++ toString idx ++ ", " ++ spellVal val
  | .rmRead idx2 idx => "RM.READ " ++ toString idx2 ++ ", " ++ toString idx
  | .rmDump => "RM.DUMP"

/-- One hexadecimal digit. -/
def hexDigit (d : Nat) : String :=
  String.ofList [("0123456789ABCDEF".toList).getD d '?']

/-- A word in hexadecimal, two digits at least. -/
def spellWord (v : Nat) : String :=
  "0x" ++ String.ofList ((if v < 16 then ['0'] else []) ++ (Nat.toDigits 16 v).map Char.toUpper)

/-- An opcode byte in hexadecimal. -/
def hexByte (b : BitVec 8) : String := hexDigit (b.toNat / 16) ++ hexDigit (b.toNat % 16)

/-- The operand ports of an operation's format, by name (R81, R73). -/
def spellPorts : Instr → String
  | .encConfig cons gpoly =>
    " CONS=" ++ spellList "," (cons.map toString) ++ " GPOLY=" ++
      spellList "," (gpoly.map (fun row => spellList "," (row.map spellWord)))
  | .encEncode sym flag => " SYM=" ++ spellWord sym ++ " FLAG=" ++ spellBit flag
  | .encClear => ""
  | .encGetRegisters => ""
  | .encSetRegisters regs => " REGS=" ++ spellList "," (regs.map spellWord)
  | .encInfo => ""
  | .rmConfig log2 len => " LOG2=" ++ toString log2 ++ " LEN=" ++ toString len
  | .rmEnterSymbol vals => " VALS=" ++ spellList "," (vals.map spellVal)
  | .rmEnterSymbolAt idx vals => " IDX=" ++ toString idx ++ " VALS=" ++ spellList "," (vals.map spellVal)
  | .rmEnterErasure => ""
  | .rmEnterErasureAt idx => " IDX=" ++ toString idx
  | .rmNormalize => ""
  | .rmDeinterleave => ""
  | .rmFindMax => ""
  | .rmFindMaxInCol idx val => " IDX=" ++ toString idx ++ " VAL=" ++ spellVal val
  | .rmRead idx2 idx => " IDX2=" ++ toString idx2 ++ " IDX=" ++ toString idx
  | .rmDump => ""

/-- An encoded operation: its opcode byte, a bar, and its operand ports (R81). -/
def spellEncoded (i : Instr) : String := hexByte i.opcode ++ " |" ++ spellPorts i

end Sys2Proof.Machine
end

