-- ==== Sys2Proof/Safety.lean ====
section
/-!
DEFINITION. The terms in which statements about the machine are made: the invariant every step keeps, what a
run of operations is, and what of a state each unit can see.
-/

namespace Sys2Proof.Machine

/-- The invariant of `ENC`: the table sizes of 10_state.md R21, R24, R27, the width of every stored word (R4),
and the invariants of R24 to R26 once a code is configured. -/
structure EncUnit.Inv (p : Params) (u : EncUnit) : Prop where
  constraintCount : u.constraints.length = p.k
  generatorCount : u.genpoly.length = p.k
  rowLength : ∀ row ∈ u.genpoly, row.length = u.n
  masksFit : ∀ row ∈ u.genpoly, ∀ g ∈ row, g < 2 ^ p.wR
  registerCount : u.reg.length = p.k
  registersFit : ∀ r ∈ u.reg, r < 2 ^ p.wR
  outputsAboveInputs : u.configured = true → p.k < u.n
  outputsFit : u.configured = true → u.n ≤ p.wS
  maximumAttained : u.configured = true → u.m ∈ u.constraints
  maximumBounds : ∀ c ∈ u.constraints, c ≤ u.m
  maximumFits : u.m ≤ p.wR

/-- The invariant of `RM`: the canonical form of the store, its extent (20_memory.md R50), the cursor
(10_state.md R33) and the capacity (60_exceptions.md R176). -/
structure RmUnit.Inv (p : Params) (u : RmUnit) : Prop where
  canonical : Memory.wf u.matrix
  insideStore : ∀ x ∈ u.matrix, x.1 < u.size
  cursorBound : u.messageSymbolCount ≤ u.messageLength
  capacity : ∀ cap, p.rmCap = some cap → u.nbSymbols * u.messageLength ≤ cap

/-- The invariant of the machine. -/
structure State.Inv (s : State) : Prop where
  parameters : s.params.wf
  encoder : EncUnit.Inv s.params s.enc
  matrix : RmUnit.Inv s.params s.rm
  errorsCarryNoResult : ∀ r, s.response = some r → r.status ≠ .ok → r.result = .none

/-- Two values of the operand ports agree on the ports that an opcode's format lists (30_encoding.md R73, R76). A
format without ports, and a reserved opcode, list none. -/
def agreeOnFormat (op : BitVec 8) (q r : Ports) : Prop :=
  match op.toNat with
  | 0x10 => q.cons = r.cons ∧ q.gpoly = r.gpoly
  | 0x11 => q.sym = r.sym ∧ q.flag = r.flag
  | 0x14 => q.regs = r.regs
  | 0x20 => q.log2 = r.log2 ∧ q.len = r.len
  | 0x21 => q.vals = r.vals
  | 0x22 => q.idx = r.idx ∧ q.vals = r.vals
  | 0x24 => q.idx = r.idx
  | 0x28 => q.idx = r.idx ∧ q.val = r.val
  | 0x29 => q.idx2 = r.idx2 ∧ q.idx = r.idx
  | _ => True

/-- The state after an operation (an operation that stopped would leave the state as it is; none does). -/
def after (i : Instr) (s : State) : State :=
  match exec i s with
  | .next t => t
  | .fault _ => s
  | .refused _ => s

/-- The state after a list of operations, in order (70_reset_and_hazards.md R206). -/
def runOps : List Instr → State → State
  | [], s => s
  | i :: l, s => runOps l (after i s)

/-- The responses a run gives to the operations of one unit, in order (R206). -/
def responsesOf (u : UnitId) : List Instr → State → List (Option Response)
  | [], _ => []
  | i :: l, s =>
    if i.unit = u then (after i s).response :: responsesOf u l (after i s)
    else responsesOf u l (after i s)

/-- Two states are the same for one unit: its own contents, the parameters, and for `RM` the free values it will
draw. -/
def sameFor (u : UnitId) (s t : State) : Prop :=
  match u with
  | .enc => t.params = s.params ∧ t.enc = s.enc
  | .rm => t.params = s.params ∧ t.rm = s.rm ∧ t.draws = s.draws

/-- `ENC.CONFIG` with these operands is answered with `ERR_CONFIG` and this cause, and nothing else changes
(40_encoder_ops.md R101, 60_exceptions.md R170). -/
def refusesConfig (s : State) (cons : List Nat) (gpoly : List (List Nat)) (c : Cause) : Prop :=
  exec (.encConfig cons gpoly) s =
    .next { s with response := some { status := .errConfig c, result := .none } }

/-- Whether an operation is a sequential insertion that is accepted for a matrix with `S` candidates
(41_matrix_write_ops.md R126 item 3). -/
def isInsertion (nbSymbols : Nat) : Instr → Bool
  | .rmEnterSymbol vals => decide (vals.length = nbSymbols)
  | .rmEnterErasure => true
  | _ => false

/-- The ranked extraction of 43_matrix_read_ops.md R156, the host's loop: at most `fuel` column searches, each
with the previous value as bound, until the value `vzero` ends the chain. -/
def rankedChain (p : Nat) : Nat → Val → State → List (Val × Nat)
  | 0, _, _ => []
  | fuel + 1, bound, s =>
    match (after (.rmFindMaxInCol p bound) s).response with
    | some ⟨.ok, .columnMaximum v row⟩ =>
      if v = vzero then [] else (v, row) :: rankedChain p fuel v (after (.rmFindMaxInCol p bound) s)
    | _ => []

/-- The host supplies admitted values only (41_matrix_write_ops.md R127). -/
def suppliesAdmitted : Instr → Bool
  | .rmEnterSymbol vals => vals.all Val.admitted
  | .rmEnterSymbolAt _ vals => vals.all Val.admitted
  | _ => true

end Sys2Proof.Machine
end

