-- ==== Sys2Proof/Certificates/Slice0/Obligations.lean ====
section
/-!
DEFINITION. The statements for the provers. Each docstring names the rules of spec/ it comes from. `S` is
`s.rm.nbSymbols`, `L` is `s.rm.messageLength`, and the element of position `p` and candidate `c` has address
`p * S + c`.
-/

open Sys2Proof Sys2Proof.Machine

/-! ### Encoding and the step -/

/-- 30_encoding.md, the map of section 3 and the formats of section 2 (the numbers are the spec's decision D21):
each opcode byte decodes to its operation with the operands its ports carry, and the unit of what is decoded is
the one its upper nibble selects. That an operand wider than its port is cut to the port's width is the model's
reading (log 3, DEDUCED), not the spec's words; an operand that fits is taken as it is. -/
def Obligations.EveryOpcodeDecodesToItsOperation : Prop :=
  (∀ (p : Params) (q : Ports),
    decode p 0x10 q = .ok (.encConfig (q.cons.map (natOnPort p.wC))
      (q.gpoly.map (fun row => row.map (wordOnPort p.wR)))) ∧
    decode p 0x11 q = .ok (.encEncode (wordOnPort p.wS q.sym) q.flag) ∧
    decode p 0x12 q = .ok .encClear ∧
    decode p 0x13 q = .ok .encGetRegisters ∧
    decode p 0x14 q = .ok (.encSetRegisters (q.regs.map (wordOnPort p.wR))) ∧
    decode p 0x15 q = .ok .encInfo ∧
    decode p 0x20 q = .ok (.rmConfig (natOnPort p.wIdx q.log2) (natOnPort p.wIdx q.len)) ∧
    decode p 0x21 q = .ok (.rmEnterSymbol q.vals) ∧
    decode p 0x22 q = .ok (.rmEnterSymbolAt (natOnPort p.wIdx q.idx) q.vals) ∧
    decode p 0x23 q = .ok .rmEnterErasure ∧
    decode p 0x24 q = .ok (.rmEnterErasureAt (natOnPort p.wIdx q.idx)) ∧
    decode p 0x25 q = .ok .rmNormalize ∧
    decode p 0x26 q = .ok .rmDeinterleave ∧
    decode p 0x27 q = .ok .rmFindMax ∧
    decode p 0x28 q = .ok (.rmFindMaxInCol (natOnPort p.wIdx q.idx) q.val) ∧
    decode p 0x29 q = .ok (.rmRead (natOnPort p.wIdx q.idx2) (natOnPort p.wIdx q.idx)) ∧
    decode p 0x2A q = .ok .rmDump) ∧
  ∀ i : Instr, (i.unit = .enc ↔ i.opcode.toNat / 16 = 1) ∧ (i.unit = .rm ↔ i.opcode.toNat / 16 = 2)

/-- 30_encoding.md section 4 (the spec's decision D25): every opcode outside the map is answered with
`ERR_ILLEGAL` and changes no state, configured or not. -/
def Obligations.ReservedOpcodesAreAnsweredIllegal : Prop :=
  ∀ (s : State) (op : BitVec 8) (q : Ports) (rest : List HostInput),
    s.inputs = .command { op := op, ports := q } :: rest →
    (op.toNat ≤ 0x0F ∨ (0x16 ≤ op.toNat ∧ op.toNat ≤ 0x1F) ∨ 0x2B ≤ op.toNat) →
    step s = .next { s with inputs := rest, response := some { status := .errIllegal, result := .none } }

/-- 30_encoding.md sections 2 and 3: decoding the encoded operation gives it back, for every operation whose
operands fit on their ports. -/
def Obligations.DecodeInvertsEncode : Prop :=
  ∀ (p : Params) (i : Instr), i.wf p = true → decode p (encode i).op (encode i).ports = .ok i

/-- 30_encoding.md sections 2 and 4: what the decoder accepts fits on its ports (wider operands cut to their port,
log 3), has the opcode it was read from, and is read again from the ports the encoder drives; and whatever the
opcode, two values of the ports that agree on the ports of its format give the same answer of the decoder: the
other ports are ignored. -/
def Obligations.DecodedOperationsAreCanonical : Prop :=
  (∀ (p : Params) (op : BitVec 8) (q : Ports) (i : Instr), decode p op q = .ok i →
    i.wf p = true ∧ (encode i).op = op ∧ decode p op (encode i).ports = .ok i) ∧
  ∀ (p : Params) (op : BitVec 8) (q r : Ports), agreeOnFormat op q r → decode p op q = decode p op r

/-- 30_encoding.md section 2, 10_state.md section 3: a step runs the operation its next command decodes to, on the
state in which that command has been taken from the inputs. There is no program counter to move. -/
def Obligations.StepRunsTheDecodedOperation : Prop :=
  ∀ (s : State) (c : Command) (rest : List HostInput) (i : Instr),
    s.inputs = .command c :: rest → decode s.params c.op c.ports = .ok i →
    step s = exec i { s with inputs := rest }

/-- 60_exceptions.md R188: with no input, a unit is idle and keeps all its state. -/
def Obligations.IdleUnitsKeepTheirState : Prop :=
  ∀ s : State, s.inputs = [] → step s = .next s

/-- 70_reset_and_hazards.md section 1 (the spec's decision D40): the reset input unconfigures both units, between
two operations. The other contents are the model's choice (log 13) and are not stated here. -/
def Obligations.ResetUnconfiguresBothUnits : Prop :=
  ∀ (s : State) (rest : List HostInput), s.inputs = .reset :: rest →
    ∃ t, step s = .next t ∧ t.enc.configured = false ∧ t.rm.configured = false ∧ t.inputs = rest ∧
      t.params = s.params ∧ t.draws = s.draws

/-- 70_reset_and_hazards.md sections 4 and 6, 30_encoding.md section 2: every input is taken and every operation,
reserved or not, is answered; the synthesis parameters never change. -/
def Obligations.EveryInputIsAnswered : Prop :=
  ∀ s : State, ∃ t, step s = .next t ∧ t.inputs = s.inputs.tail ∧ t.params = s.params ∧
    ∀ c rest, s.inputs = .command c :: rest → ∃ r, t.response = some r

/-! ### Rules of the whole machine -/

/-- The invariant holds after reset, for every choice of synthesis parameters that meets 00_scope.md R4. The
contents of the unconfigured units are the model's choice (log 13). -/
def Obligations.ResetMeetsTheInvariant : Prop :=
  (∀ p : Params, p.wf → (State.resetWith p).Inv) ∧ State.reset.Inv

/-- 10_state.md R21, R24 to R27, R33, 20_memory.md R50, 60_exceptions.md R176: every step keeps the invariant: the
table sizes and word widths of `ENC`, `K < n ≤ W_S` and `m` the greatest constraint, the extent of the store, the
cursor bound, the capacity, and no result in a response that is not `OK`. The model's, not the spec's: what the
clauses say of a unit that is not configured (log 13, log 14), the canonical form of the store (log 17), and that a
word wider than its port is cut to it (log 3). -/
def Obligations.StepKeepsTheInvariant : Prop :=
  ∀ s t : State, s.Inv → step s = .next t → t.Inv

/-- 60_exceptions.md section 1: an operation that ends with a status other than `OK` changes no state of either unit
and has no effect but its response, and the same holds of a step whatever its opcode; the cause code is non-zero
exactly for `ERR_CONFIG` (the codes are the spec's decisions D16 and D23, log 20). -/
def Obligations.ExceptionsChangeNothing : Prop :=
  (∀ (i : Instr) (s t : State) (r : Response), exec i s = .next t → t.response = some r → r.status ≠ .ok →
    t = { s with response := some { status := r.status, result := .none } }) ∧
  (∀ (s t : State) (c : Command) (rest : List HostInput) (r : Response), s.inputs = .command c :: rest →
    step s = .next t → t.response = some r → r.status ≠ .ok →
    t = { s with inputs := rest, response := some { status := r.status, result := .none } }) ∧
  ∀ st : Status, st.causeCode ≠ 0 ↔ ∃ c, st = .errConfig c

/-- 10_state.md section 1, on immutability: after a successful `ENC.CONFIG` the code definition never changes until
reset, and a second `ENC.CONFIG` is refused; the status of that refusal is the spec's decision D36 (log 20). -/
def Obligations.CodeDefinitionIsImmutable : Prop :=
  (∀ s t : State, s.enc.configured = true → s.inputs.head? ≠ some .reset → step s = .next t →
    t.enc.configured = true ∧ t.enc.constraints = s.enc.constraints ∧ t.enc.n = s.enc.n ∧ t.enc.m = s.enc.m ∧
      t.enc.genpoly = s.enc.genpoly) ∧
  ∀ (s : State) (cons : List Nat) (gpoly : List (List Nat)), s.enc.configured = true →
    exec (.encConfig cons gpoly) s =
      .next { s with response := some { status := .errAlreadyConfigured, result := .none } }

/-- 10_state.md sections 2 and 3: until reset a configured matrix stays configured with its dimensions, and its
cursor never decreases. -/
def Obligations.MatrixDimensionsAreImmutable : Prop :=
  ∀ s t : State, s.rm.configured = true → s.inputs.head? ≠ some .reset → step s = .next t →
    t.rm.configured = true ∧ t.rm.nbSymbolsLog2 = s.rm.nbSymbolsLog2 ∧ t.rm.messageLength = s.rm.messageLength ∧
      s.rm.messageSymbolCount ≤ t.rm.messageSymbolCount ∧
      t.rm.messageSymbolCount ≤ s.rm.messageSymbolCount + 1

/-- 00_scope.md R2: no operation of `ENC` reads or writes any state of `RM`, and no operation of `RM` reads or
writes any state of `ENC`: what it does to its own unit and what it answers is the same whatever the other unit
holds. -/
def Obligations.UnitsAreIndependent : Prop :=
  ∀ (i : Instr) (s : State),
    (i.unit = .enc → ∃ v r, exec i s = .next { s with enc := v, response := r } ∧
      ∀ u n, exec i { s with rm := u, draws := n } =
        .next { s with enc := v, rm := u, draws := n, response := r }) ∧
    (i.unit = .rm → ∃ v r n, exec i s = .next { s with rm := v, response := r, draws := n } ∧
      ∀ u, exec i { s with enc := u } = .next { s with enc := u, rm := v, response := r, draws := n })

/-- 20_memory.md section 3 (its own derivation): every interleaving of the operations of the two units that keeps
each unit's own order gives each unit the same final state and the same responses. -/
def Obligations.InterleavingIsUnobservable : Prop :=
  ∀ (l1 l2 : List Instr) (s : State),
    l1.filter (fun i => decide (i.unit = .enc)) = l2.filter (fun i => decide (i.unit = .enc)) →
    l1.filter (fun i => decide (i.unit = .rm)) = l2.filter (fun i => decide (i.unit = .rm)) →
    sameFor .enc (runOps l1 s) (runOps l2 s) ∧ sameFor .rm (runOps l1 s) (runOps l2 s) ∧
      responsesOf .enc l1 s = responsesOf .enc l2 s ∧ responsesOf .rm l1 s = responsesOf .rm l2 s

/-- 10_state.md, the note under the summary table: what an unconfigured unit holds cannot be observed. Two states
that differ only in the contents of an unconfigured unit give the same response, and afterwards either still
differ only there or are equal. -/
def Obligations.ContentsBeforeConfigAreUnobservable : Prop :=
  ∀ (i : Instr) (s : State),
    (∀ u : EncUnit, s.enc.configured = false → u.configured = false →
      ∃ t, exec i s = .next t ∧
        (exec i { s with enc := u } = .next t ∨
          (t.enc = s.enc ∧ exec i { s with enc := u } = .next { t with enc := u }))) ∧
    (∀ u : RmUnit, s.rm.configured = false → u.configured = false →
      ∃ t, exec i s = .next t ∧
        (exec i { s with rm := u } = .next t ∨
          (t.rm = s.rm ∧ exec i { s with rm := u } = .next { t with rm := u })))

/-- 60_exceptions.md section 1 (the spec's decision D1): every operation but its `CONFIG` on an unconfigured unit
is answered with `ERR_NOT_CONFIGURED` and changes nothing, whatever its operands. -/
def Obligations.UnconfiguredUnitsRefuse : Prop :=
  ∀ (i : Instr) (s : State), i.isConfig = false →
    ((i.unit = .enc ∧ s.enc.configured = false) ∨ (i.unit = .rm ∧ s.rm.configured = false)) →
    exec i s = .next { s with response := some { status := .errNotConfigured, result := .none } }

/-- 30_encoding.md section 2, 40_encoder_ops.md section ENC.CONFIG (the numbers are the spec's decisions D16, D23):
the status and cause codes. -/
def Obligations.StatusAndCauseCodes : Prop :=
  Status.ok.code = 0 ∧ (∀ c, (Status.errConfig c).code = 1) ∧ Status.errNotConfigured.code = 2 ∧
    Status.errIllegal.code = 3 ∧ Status.errAlreadyConfigured.code = 4 ∧ Status.errCapacity.code = 5 ∧
    (Status.errConfig .constraintCount).causeCode = 1 ∧ (Status.errConfig .inputsExceedSymbol).causeCode = 2 ∧
    (Status.errConfig .generatorCount).causeCode = 3 ∧
    (Status.errConfig .constraintExceedsRegister).causeCode = 4 ∧
    (Status.errConfig .outputsNotAboveInputs).causeCode = 5 ∧
    (Status.errConfig .outputsExceedSymbol).causeCode = 6

/-- 30_encoding.md section 4 (the spec's decision D26), 60_exceptions.md section 2: a list operand of the wrong
length is answered with `ERR_ILLEGAL` and changes nothing, whether or not the position is in range. -/
def Obligations.WrongShapeIsIllegal : Prop :=
  ∀ s : State,
    (∀ regs : List Nat, s.enc.configured = true → regs.length ≠ s.params.k →
      exec (.encSetRegisters regs) s =
        .next { s with response := some { status := .errIllegal, result := .none } }) ∧
    (∀ vals : List Val, s.rm.configured = true → vals.length ≠ 2 ^ s.rm.nbSymbolsLog2 →
      exec (.rmEnterSymbol vals) s =
        .next { s with response := some { status := .errIllegal, result := .none } } ∧
      ∀ idx, exec (.rmEnterSymbolAt idx vals) s =
        .next { s with response := some { status := .errIllegal, result := .none } })

/-! ### Words and values -/

/-- 00_scope.md section 5: the shifts are those of bit vectors of the width, `popcount` counts the 1 bits,
`bitrev` reverses them, and `clog2(x)` is the least `c` with `2^c ≥ x` (the kinds of the shifts are the spec's
decisions D6 and D7). -/
def Obligations.IntegerPrimitivesAreTheSpecs : Prop :=
  (∀ w a n, a < 2 ^ w → shiftLeft w a n = (BitVec.ofNat w a <<< n).toNat ∧
    shiftRight a n = (BitVec.ofNat w a >>> n).toNat) ∧
  (∀ w a, popcount w a = ((List.range w).filter (fun b => a.testBit b)).length ∧
    parity w a = decide (popcount w a % 2 = 1)) ∧
  (∀ i w, bitrev i w < 2 ^ w ∧ ∀ b, b < w → (bitrev i w).testBit b = i.testBit (w - 1 - b)) ∧
  ∀ x c, clog2 x ≤ c ↔ x ≤ 2 ^ c

/-- 00_scope.md R12: the admitted values are the non-negative finite ones; on them, in every numeric format, `vle` is a total order with least element
`vzero`, `vlt` is `vle` without `veq`, and `vadd` and `vdiv` obey the laws the rules assume. -/
def Obligations.ValuesObeyTheirInterface : Prop :=
  (∀ v : Val, Val.admitted v = true ↔ ∃ q : Rat, v = .fin q ∧ 0 ≤ q) ∧
  ∀ (f : Numeric) (a b c : Val), Val.admitted a = true → Val.admitted b = true → Val.admitted c = true →
    vle vzero a = true ∧ (vle a b = true ∨ vle b a = true) ∧
    (vle a b = true → vle b a = true → a = b) ∧
    (vle a b = true → vle b c = true → vle a c = true) ∧
    (veq a b = true ↔ a = b) ∧
    (vlt a b = true ↔ (vle a b = true ∧ ¬ veq a b = true)) ∧
    Val.admitted vzero = true ∧
    vadd f a vzero = a ∧ Val.admitted (vadd f a b) = true ∧ (vadd f a b = vzero → a = vzero ∧ b = vzero) ∧
    (b ≠ vzero → Val.admitted (vdiv f a b) = true ∧ vdiv f vzero b = vzero)

/-! ### The unit `ENC` -/

/-- 40_encoder_ops.md section ENC.CONFIG: when none of the six conditions holds, the construction builds the code:
`n` is the least generator length, `m` the greatest constraint, longer vectors are cut to `n`, the registers are
zero. -/
def Obligations.EncConfigBuildsTheCode : Prop :=
  ∀ (s : State) (cons : List Nat) (gpoly : List (List Nat)),
    s.enc.configured = false → cons.length = s.params.k → s.params.k ≤ s.params.wS →
    gpoly.length = s.params.k → (∀ c ∈ cons, c ≤ s.params.wR) → (∀ row ∈ gpoly, s.params.k < row.length) →
    (∃ row ∈ gpoly, row.length ≤ s.params.wS) →
    ∃ n m, exec (.encConfig cons gpoly) s =
        .next { s with
          enc := { configured := true, constraints := cons, n := n, m := m,
                   genpoly := gpoly.map (List.take n), reg := List.replicate s.params.k 0 }
          response := some { status := .ok, result := .none } } ∧
      (∀ row ∈ gpoly, n ≤ row.length) ∧ (∃ row ∈ gpoly, row.length = n) ∧ (∀ c ∈ cons, c ≤ m) ∧ m ∈ cons

/-- 40_encoder_ops.md section ENC.CONFIG, 60_exceptions.md section 2 (the order is the spec's decision D16): the
first of the six conditions that holds is the cause reported, and nothing else changes. -/
def Obligations.EncConfigReportsTheFirstFailingCheck : Prop :=
  ∀ (s : State) (cons : List Nat) (gpoly : List (List Nat)), s.params.wf → s.enc.configured = false →
    (cons.length ≠ s.params.k → refusesConfig s cons gpoly .constraintCount) ∧
    (cons.length = s.params.k →
      (s.params.wS < s.params.k → refusesConfig s cons gpoly .inputsExceedSymbol) ∧
      (s.params.k ≤ s.params.wS →
        (gpoly.length ≠ s.params.k → refusesConfig s cons gpoly .generatorCount) ∧
        (gpoly.length = s.params.k →
          ((∃ c ∈ cons, s.params.wR < c) → refusesConfig s cons gpoly .constraintExceedsRegister) ∧
          ((∀ c ∈ cons, c ≤ s.params.wR) →
            ((∃ row ∈ gpoly, row.length ≤ s.params.k) → refusesConfig s cons gpoly .outputsNotAboveInputs) ∧
            ((∀ row ∈ gpoly, s.params.wS < row.length) → refusesConfig s cons gpoly .outputsExceedSymbol)))))

/-- 40_encoder_ops.md sections ENC.ENCODE (decisions D6, D7, D17, D18 among them): on a configured unit `ENC.ENCODE`
completes for every symbol and flag. Bit 0 of each register becomes the symbol's bit; with `no_step` the other bits
stay, without it each takes the bit below it; output bit `i` is the parity of the 1 bits that registers, as
updated, and masks share; output bits from `n` on are zero. Nothing else changes. -/
def Obligations.EncodeUpdatesRegistersAndOutput : Prop :=
  ∀ (s : State) (sym : Nat) (flag : Bool), s.enc.configured = true → 1 ≤ s.params.wR →
    ∃ (regs : List Nat) (osym : Nat), exec (.encEncode sym flag) s =
        .next { s with
          enc := { s.enc with reg := regs }
          response := some { status := .ok, result := .symbol osym } } ∧
      regs.length = s.params.k ∧
      (∀ j, j < s.params.k → regs.getD j 0 < 2 ^ s.params.wR ∧
        ∀ b, b < s.params.wR → (regs.getD j 0).testBit b =
          if b = 0 then sym.testBit j
          else if flag then (s.enc.reg.getD j 0).testBit b
          else (s.enc.reg.getD j 0).testBit (b - 1)) ∧
      (∀ i, i < s.enc.n → osym.testBit i = decide
        ((∑ j ∈ Finset.range s.params.k, ∑ b ∈ Finset.range s.params.wR,
          if (regs.getD j 0).testBit b && ((s.enc.genpoly.getD j []).getD i 0).testBit b then 1 else 0) % 2 = 1)) ∧
      (∀ i, s.enc.n ≤ i → osym.testBit i = false)

/-- 40_encoder_ops.md section ENC.ENCODE, laws 2 and 3 (its own derivations): a replace after a step, or after a
replace, leaves exactly the state and the answer of the last symbol entered alone. -/
def Obligations.ReplaceOverwritesTheLastSymbol : Prop :=
  ∀ (s t : State) (a b : Nat) (flag : Bool), 1 ≤ s.params.wR → s.enc.configured = true →
    exec (.encEncode a flag) s = .next t → exec (.encEncode b true) t = exec (.encEncode b flag) s

/-- 40_encoder_ops.md section ENC.ENCODE, law 1: the answer and the new registers are a function of the registers,
the low `K` bits of the symbol, the flag, the masks and `n`, and of nothing else. -/
def Obligations.EncodeIsPure : Prop :=
  ∀ (s t : State) (a b : Nat) (flag : Bool), s.enc.configured = true → t.enc.configured = true →
    s.params.k = t.params.k → s.params.wR = t.params.wR → s.enc.n = t.enc.n →
    (∀ j, j < s.params.k → s.enc.reg.getD j 0 = t.enc.reg.getD j 0) →
    (∀ j, j < s.params.k → ∀ i, i < s.enc.n →
      (s.enc.genpoly.getD j []).getD i 0 = (t.enc.genpoly.getD j []).getD i 0) →
    (∀ j, j < s.params.k → a.testBit j = b.testBit j) →
    ∃ s' t', exec (.encEncode a flag) s = .next s' ∧ exec (.encEncode b flag) t = .next t' ∧
      s'.response = t'.response ∧ s'.enc.reg = t'.enc.reg

/-- 40_encoder_ops.md section ENC.ENCODE, law 5 (its own derivation): the encoder is linear over GF(2): from
registers that are the XOR of two others', the XOR of two symbols gives the XOR of their registers and of their
outputs. -/
def Obligations.EncodeIsLinear : Prop :=
  ∀ (s : State) (x y z : List Nat) (a b : Nat) (flag : Bool), s.enc.configured = true → 1 ≤ s.params.wR →
    (∀ j, j < s.params.k → z.getD j 0 = x.getD j 0 ^^^ y.getD j 0) →
    ∃ tx ty tz ox oy,
      exec (.encEncode a flag) { s with enc := { s.enc with reg := x } } = .next tx ∧
      exec (.encEncode b flag) { s with enc := { s.enc with reg := y } } = .next ty ∧
      exec (.encEncode (a ^^^ b) flag) { s with enc := { s.enc with reg := z } } = .next tz ∧
      tx.response = some { status := .ok, result := .symbol ox } ∧
      ty.response = some { status := .ok, result := .symbol oy } ∧
      tz.response = some { status := .ok, result := .symbol (ox ^^^ oy) } ∧
      ∀ j, j < s.params.k → tz.enc.reg.getD j 0 = tx.enc.reg.getD j 0 ^^^ ty.enc.reg.getD j 0

/-- 40_encoder_ops.md R106: `ENC.CLEAR`, opcode `0x12`, zeroes the `K` registers and changes nothing else. -/
def Obligations.ClearZeroesTheRegisters : Prop :=
  (encode .encClear).op = 0x12 ∧ (encode .encClear).ports = {} ∧
  ∀ s : State, s.enc.configured = true →
    ∃ regs, exec .encClear s =
        .next { s with enc := { s.enc with reg := regs }, response := some { status := .ok, result := .none } } ∧
      regs.length = s.params.k ∧ ∀ r ∈ regs, r = 0

/-- 40_encoder_ops.md R107: `ENC.GET_REGISTERS`, opcode `0x13`, answers the `K` registers in order and changes no
state. -/
def Obligations.GetRegistersReturnsTheRegisters : Prop :=
  (encode .encGetRegisters).op = 0x13 ∧ (encode .encGetRegisters).ports = {} ∧
  ∀ s : State, s.enc.configured = true →
    ∃ oregs, exec .encGetRegisters s =
        .next { s with response := some { status := .ok, result := .registers oregs } } ∧
      oregs.length = s.params.k ∧ ∀ j, j < s.params.k → oregs.getD j 0 = s.enc.reg.getD j 0

/-- 40_encoder_ops.md section ENC.SET_REGISTERS: a list of `K` values replaces all `K` registers, whatever the
values are, and nothing else changes. -/
def Obligations.SetRegistersReplacesTheRegisters : Prop :=
  ∀ (s : State) (regs : List Nat), s.enc.configured = true → regs.length = s.params.k →
    exec (.encSetRegisters regs) s =
      .next { s with enc := { s.enc with reg := regs }, response := some { status := .ok, result := .none } }

/-- 40_encoder_ops.md section ENC.SET_REGISTERS, laws (its own derivation): putting back a snapshot, after any run
of operations of either unit, restores exactly the encoder at the time of the snapshot, and reading it again gives
the snapshot. -/
def Obligations.SnapshotRestoresTheEncoder : Prop :=
  ∀ (s : State) (l : List Instr), s.Inv → s.enc.configured = true →
    ∃ t u v snapshot, exec .encGetRegisters s = .next t ∧
      t.response = some { status := .ok, result := .registers snapshot } ∧
      exec (.encSetRegisters snapshot) (runOps l t) = .next u ∧ u.enc = s.enc ∧
      exec .encGetRegisters u = .next v ∧
      v.response = some { status := .ok, result := .registers snapshot }

/-- 40_encoder_ops.md section ENC.INFO (the read-out is the spec's decision D19): `ENC.INFO` answers `K`, `n`, `m`,
the constraints and the generator table, and changes no state. -/
def Obligations.InfoReadsTheCodeDefinition : Prop :=
  ∀ s : State, s.enc.configured = true →
    exec .encInfo s = .next { s with
      response := some
        { status := .ok, result := .info s.params.k s.enc.n s.enc.m s.enc.constraints s.enc.genpoly } }

/-! ### The unit `RM`: construction and writes -/

/-- 41_matrix_write_ops.md section RM.CONFIG: within the capacity, the construction gives a matrix of the
dimensions asked for, every element `vzero`, the cursor 0, and leaves everything else as it was. -/
def Obligations.RmConfigBuildsAZeroMatrix : Prop :=
  ∀ (s : State) (log2 len : Nat), s.rm.configured = false →
    (∀ cap, s.params.rmCap = some cap → 2 ^ log2 * len ≤ cap) →
    ∃ mem, exec (.rmConfig log2 len) s =
        .next { s with
          rm := { configured := true, nbSymbolsLog2 := log2, messageLength := len, matrix := mem,
                  messageSymbolCount := 0 }
          response := some { status := .ok, result := .none } } ∧
      Memory.wf mem ∧ ∀ a, Memory.read mem a = vzero

/-- 41_matrix_write_ops.md section RM.CONFIG, 60_exceptions.md section 1 (the spec's decisions D12, D36, D37): a
configured matrix refuses a second construction, before the capacity is looked at; an unconfigured one refuses more
than its capacity. -/
def Obligations.RmConfigRefusals : Prop :=
  ∀ (s : State) (log2 len : Nat),
    (s.rm.configured = true → exec (.rmConfig log2 len) s =
      .next { s with response := some { status := .errAlreadyConfigured, result := .none } }) ∧
    (∀ cap, s.rm.configured = false → s.params.rmCap = some cap → cap < 2 ^ log2 * len →
      exec (.rmConfig log2 len) s =
        .next { s with response := some { status := .errCapacity, result := .none } })

/-- 41_matrix_write_ops.md section RM.ENTER_SYMBOL: below `L` the column at the cursor takes the values and the
cursor advances by one; at `L` nothing changes and the status is still `OK`. -/
def Obligations.EnterSymbolFillsTheCursorColumn : Prop :=
  ∀ (s : State) (vals : List Val), s.rm.configured = true → Memory.wf s.rm.matrix →
    vals.length = s.rm.nbSymbols →
    (s.rm.messageSymbolCount < s.rm.messageLength →
      ∃ mem, exec (.rmEnterSymbol vals) s =
          .next { s with
            rm := { s.rm with matrix := mem, messageSymbolCount := s.rm.messageSymbolCount + 1 }
            response := some { status := .ok, result := .none } } ∧
        (∀ c, c < s.rm.nbSymbols →
          Memory.read mem (s.rm.messageSymbolCount * s.rm.nbSymbols + c) = vals.getD c vzero) ∧
        ∀ a, (a < s.rm.messageSymbolCount * s.rm.nbSymbols ∨
            s.rm.messageSymbolCount * s.rm.nbSymbols + s.rm.nbSymbols ≤ a) →
          Memory.read mem a = Memory.read s.rm.matrix a) ∧
    (s.rm.messageLength ≤ s.rm.messageSymbolCount →
      exec (.rmEnterSymbol vals) s =
        .next { s with response := some { status := .ok, result := .none } })

/-- 41_matrix_write_ops.md section RM.ENTER_SYMBOL_AT: a position below `L` takes the values, the cursor stays; a
position outside the matrix changes nothing and the status is still `OK`. -/
def Obligations.EnterSymbolAtFillsThePosition : Prop :=
  ∀ (s : State) (idx : Nat) (vals : List Val), s.rm.configured = true → Memory.wf s.rm.matrix →
    vals.length = s.rm.nbSymbols →
    (idx < s.rm.messageLength →
      ∃ mem, exec (.rmEnterSymbolAt idx vals) s =
          .next { s with rm := { s.rm with matrix := mem }, response := some { status := .ok, result := .none } } ∧
        (∀ c, c < s.rm.nbSymbols → Memory.read mem (idx * s.rm.nbSymbols + c) = vals.getD c vzero) ∧
        ∀ a, (a < idx * s.rm.nbSymbols ∨ idx * s.rm.nbSymbols + s.rm.nbSymbols ≤ a) →
          Memory.read mem a = Memory.read s.rm.matrix a) ∧
    (s.rm.messageLength ≤ idx →
      exec (.rmEnterSymbolAt idx vals) s =
        .next { s with response := some { status := .ok, result := .none } })

/-- 41_matrix_write_ops.md R124 and R125: the erasures, opcodes `0x23` and `0x24`, zero the column at the cursor
(and advance it) or at the position; outside the matrix they change nothing, and the status is `OK` in every
case. -/
def Obligations.ErasuresZeroOneColumn : Prop :=
  (encode .rmEnterErasure).op = 0x23 ∧ (encode .rmEnterErasure).ports = {} ∧
  (∀ idx, (encode (.rmEnterErasureAt idx)).op = 0x24 ∧
    (encode (.rmEnterErasureAt idx)).ports = { idx := idx }) ∧
  ∀ s : State, s.rm.configured = true → Memory.wf s.rm.matrix →
    (s.rm.messageSymbolCount < s.rm.messageLength →
      ∃ mem, exec .rmEnterErasure s =
          .next { s with
            rm := { s.rm with matrix := mem, messageSymbolCount := s.rm.messageSymbolCount + 1 }
            response := some { status := .ok, result := .none } } ∧
        ∀ a, Memory.read mem a =
          if s.rm.messageSymbolCount * s.rm.nbSymbols ≤ a ∧
              a < s.rm.messageSymbolCount * s.rm.nbSymbols + s.rm.nbSymbols then vzero
          else Memory.read s.rm.matrix a) ∧
    (s.rm.messageLength ≤ s.rm.messageSymbolCount →
      exec .rmEnterErasure s = .next { s with response := some { status := .ok, result := .none } }) ∧
    ∀ idx,
      (idx < s.rm.messageLength →
        ∃ mem, exec (.rmEnterErasureAt idx) s =
            .next { s with rm := { s.rm with matrix := mem }, response := some { status := .ok, result := .none } } ∧
          ∀ a, Memory.read mem a =
            if idx * s.rm.nbSymbols ≤ a ∧ a < idx * s.rm.nbSymbols + s.rm.nbSymbols then vzero
            else Memory.read s.rm.matrix a) ∧
      (s.rm.messageLength ≤ idx →
        exec (.rmEnterErasureAt idx) s = .next { s with response := some { status := .ok, result := .none } })

/-- 41_matrix_write_ops.md section "Laws and obligations", law 1: an erasure is an insertion of `S` zeros, in every
state. -/
def Obligations.ErasureEqualsZeroSymbol : Prop :=
  ∀ s : State,
    exec .rmEnterErasure s = exec (.rmEnterSymbol (List.replicate s.rm.nbSymbols vzero)) s ∧
    ∀ idx, exec (.rmEnterErasureAt idx) s =
      exec (.rmEnterSymbolAt idx (List.replicate s.rm.nbSymbols vzero)) s

/-- 41_matrix_write_ops.md section "Laws and obligations", law 3 (its own derivation): over any run of operations
of either unit, the cursor of a freshly constructed matrix is the number of sequential insertions performed, and at
most `L`. -/
def Obligations.CursorCountsInsertions : Prop :=
  ∀ (s : State) (l : List Instr), s.rm.configured = true → s.rm.messageSymbolCount = 0 →
    (runOps l s).rm.messageSymbolCount =
      min s.rm.messageLength (l.countP (isInsertion s.rm.nbSymbols))

/-- 41_matrix_write_ops.md section "Laws and obligations" (what the host must supply), 42_matrix_transform_ops.md
section "Numerics of Val": when the host supplies admitted values only, an admitted store stays admitted under
every operation. -/
def Obligations.AdmittedStoreStaysAdmitted : Prop :=
  ∀ (i : Instr) (s t : State), suppliesAdmitted i = true → Memory.allAdmitted s.rm.matrix = true →
    exec i s = .next t → Memory.allAdmitted t.rm.matrix = true

/-! ### The unit `RM`: transforms -/

/-- 42_matrix_transform_ops.md section RM.NORMALIZE (the order of the additions is the spec's decision D29): on an
admitted store every entry is divided by the sum of its own column before the operation, a column whose sum is
`vzero` stays, and nothing else changes, the cursor among it. -/
def Obligations.NormalizeDividesByTheColumnSum : Prop :=
  ∀ s : State, s.rm.configured = true → RmUnit.Inv s.params s.rm → Memory.allAdmitted s.rm.matrix = true →
    ∃ mem, exec .rmNormalize s =
        .next { s with rm := { s.rm with matrix := mem }, response := some { status := .ok, result := .none } } ∧
      (∀ p c, p < s.rm.messageLength → c < s.rm.nbSymbols →
        ∀ sum, sum = ((List.range s.rm.nbSymbols).map
            (fun d => Memory.read s.rm.matrix (p * s.rm.nbSymbols + d))).foldl (vadd s.params.numeric) vzero →
          Memory.read mem (p * s.rm.nbSymbols + c) =
            if sum = vzero then Memory.read s.rm.matrix (p * s.rm.nbSymbols + c)
            else vdiv s.params.numeric (Memory.read s.rm.matrix (p * s.rm.nbSymbols + c)) sum) ∧
      ∀ a, s.rm.messageLength * s.rm.nbSymbols ≤ a → Memory.read mem a = Memory.read s.rm.matrix a

/-- 42_matrix_transform_ops.md section RM.NORMALIZE, its laws, for exact values: after `RM.NORMALIZE` a column whose
sum was not `vzero` sums to 1, and a column whose sum was `vzero` is all zero. -/
def Obligations.NormalizedColumnsSumToOne : Prop :=
  ∀ s : State, s.rm.configured = true → s.params.numeric = .exact → Memory.allAdmitted s.rm.matrix = true →
    ∃ t, exec .rmNormalize s = .next t ∧ ∀ p, p < s.rm.messageLength →
      (s.rm.columnSum .exact p ≠ vzero → t.rm.columnSum .exact p = .fin 1) ∧
      (s.rm.columnSum .exact p = vzero → ∀ c, c < s.rm.nbSymbols → t.rm.entry p c = vzero)

/-- 20_memory.md section 2 and 42_matrix_transform_ops.md section RM.NORMALIZE (their own derivations), for exact
values: a second `RM.NORMALIZE` changes nothing, and normalising keeps the order of the entries of a column. -/
def Obligations.ExactNormalizeIsIdempotentAndMonotone : Prop :=
  ∀ s : State, s.rm.configured = true → s.params.numeric = .exact → Memory.allAdmitted s.rm.matrix = true →
    ∃ t, exec .rmNormalize s = .next t ∧ exec .rmNormalize t = .next t ∧
      ∀ p c d, p < s.rm.messageLength → c < s.rm.nbSymbols → d < s.rm.nbSymbols →
        vlt (t.rm.entry p c) (t.rm.entry p d) = vlt (s.rm.entry p c) (s.rm.entry p d)

/-- 42_matrix_transform_ops.md section RM.DEINTERLEAVE (the logarithm on integers and the cursor that stays are the
spec's decisions D30 and D31, log 20): new column `d` is the old column of its source, candidate by candidate, and
nothing else changes, the cursor among it. -/
def Obligations.DeinterleaveMovesWholeColumns : Prop :=
  ∀ s : State, s.rm.configured = true → RmUnit.Inv s.params s.rm →
    ∃ mem, exec .rmDeinterleave s =
        .next { s with rm := { s.rm with matrix := mem }, response := some { status := .ok, result := .none } } ∧
      (∀ d c, d < s.rm.messageLength → c < s.rm.nbSymbols →
        Memory.read mem (d * s.rm.nbSymbols + c) =
          Memory.read s.rm.matrix (deinterleaveSource s.rm.messageLength d * s.rm.nbSymbols + c)) ∧
      ∀ a, s.rm.messageLength * s.rm.nbSymbols ≤ a → Memory.read mem a = Memory.read s.rm.matrix a

/-- 42_matrix_transform_ops.md section RM.DEINTERLEAVE, its laws: for every message length the sources are the
positions, each once, listed in ascending order of their bit reversals within `clog2(L) + 1` bits (the logarithm on
integers is the spec's decision D30, log 20); new column `d` is the old column of the `d`-th source, so the columns
before and after the operation are the same, each as often as before. -/
def Obligations.DeinterleaveIsThePermutationByBitReversal : Prop :=
  (∀ len : Nat,
    (∀ d, d < len → deinterleaveSource len d < len) ∧
    (∀ p, p < len → ∃ d, d < len ∧ deinterleaveSource len d = p) ∧
    ∀ d e, d < e → e < len → bitrev (deinterleaveSource len d) (clog2 len + 1) <
      bitrev (deinterleaveSource len e) (clog2 len + 1)) ∧
  ∀ s t : State, s.rm.configured = true → exec .rmDeinterleave s = .next t →
    (∀ d, d < s.rm.messageLength →
      memRead t.rm.matrix (d * s.rm.nbSymbols) s.rm.nbSymbols =
        memRead s.rm.matrix (deinterleaveSource s.rm.messageLength d * s.rm.nbSymbols) s.rm.nbSymbols) ∧
    ((List.range s.rm.messageLength).map
        (fun p => memRead t.rm.matrix (p * s.rm.nbSymbols) s.rm.nbSymbols)).Perm
      ((List.range s.rm.messageLength).map
        (fun p => memRead s.rm.matrix (p * s.rm.nbSymbols) s.rm.nbSymbols))

/-- 42_matrix_transform_ops.md section RM.DEINTERLEAVE, its laws (their own derivation, with decision D30): for a
power of two the source of `d` is the reversal of its `q` bits, and the operation undoes itself. -/
def Obligations.PowerOfTwoDeinterleaveUndoesItself : Prop :=
  (∀ q d, d < 2 ^ q → deinterleaveSource (2 ^ q) d = bitrev d q) ∧
  ∀ (s : State) (q : Nat), s.rm.configured = true → RmUnit.Inv s.params s.rm → s.rm.messageLength = 2 ^ q →
    ∃ t u, exec .rmDeinterleave s = .next t ∧ exec .rmDeinterleave t = .next u ∧ u.rm = s.rm

/-- 42_matrix_transform_ops.md section RM.DEINTERLEAVE, the table of small lengths (with decision D30). -/
def Obligations.DeinterleaveSourcesOfSmallLengths : Prop :=
  deinterleaveSources 1 = [0] ∧ deinterleaveSources 2 = [0, 1] ∧ deinterleaveSources 3 = [0, 2, 1] ∧
    deinterleaveSources 4 = [0, 2, 1, 3] ∧ deinterleaveSources 5 = [0, 4, 2, 1, 3] ∧
    deinterleaveSources 6 = [0, 4, 2, 1, 5, 3] ∧ deinterleaveSources 7 = [0, 4, 2, 6, 1, 5, 3] ∧
    deinterleaveSources 8 = [0, 4, 2, 6, 1, 5, 3, 7] ∧ deinterleaveSources 9 = [0, 8, 4, 2, 6, 1, 5, 3, 7] ∧
    deinterleaveSources 12 = [0, 8, 4, 2, 10, 6, 1, 9, 5, 3, 11, 7] ∧
    deinterleaveSources 16 = [0, 8, 4, 12, 2, 10, 6, 14, 1, 9, 5, 13, 3, 11, 7, 15]

/-- 70_reset_and_hazards.md section 2 (its own derivation): `RM.NORMALIZE` and `RM.DEINTERLEAVE` commute exactly,
in every numeric format. -/
def Obligations.NormalizeAndDeinterleaveCommute : Prop :=
  ∀ s : State, s.rm.configured = true → Memory.allAdmitted s.rm.matrix = true →
    ∃ a b t, exec .rmNormalize s = .next a ∧ exec .rmDeinterleave a = .next t ∧
      exec .rmDeinterleave s = .next b ∧ exec .rmNormalize b = .next t

/-! ### The unit `RM`: reads -/

/-- 43_matrix_read_ops.md R151: `RM.FIND_MAX`, opcode `0x27`, on an admitted store: `(vzero, 0, 0)` when
no entry is greater than `vzero`; otherwise the greatest entry, and the candidate and position of the last entry in
scan order that holds it. Nothing changes. -/
def Obligations.FindMaxIsTheLastGreatestEntry : Prop :=
  (encode .rmFindMax).op = 0x27 ∧ (encode .rmFindMax).ports = {} ∧
  ∀ s : State, s.rm.configured = true → Memory.allAdmitted s.rm.matrix = true →
    ∃ oval orow ocol, exec .rmFindMax s =
        .next { s with response := some { status := .ok, result := .maximum oval orow ocol } } ∧
      ((∀ p c, p < s.rm.messageLength → c < s.rm.nbSymbols → ¬ vlt vzero (s.rm.entry p c) = true) →
        oval = vzero ∧ orow = 0 ∧ ocol = 0) ∧
      ((∃ p c, p < s.rm.messageLength ∧ c < s.rm.nbSymbols ∧ vlt vzero (s.rm.entry p c) = true) →
        vlt vzero oval = true ∧ ocol < s.rm.messageLength ∧ orow < s.rm.nbSymbols ∧
        s.rm.entry ocol orow = oval ∧
        (∀ p c, p < s.rm.messageLength → c < s.rm.nbSymbols → vle (s.rm.entry p c) oval = true) ∧
        ∀ p c, p < s.rm.messageLength → c < s.rm.nbSymbols → (ocol < p ∨ (ocol = p ∧ orow < c)) →
          vlt (s.rm.entry p c) oval = true)

/-- 43_matrix_read_ops.md sections RM.FIND_MAX_IN_COL (the decisions D32 and D34 among them): on an admitted store
and for a bound that can be compared, the greatest entry of the column strictly between `vzero` and the bound, and
the last candidate that holds it; `(vzero, 0)` when there is none or the column does not exist. Nothing changes. How
a bound that is infinite or negative zero compares is the model's choice (log 8, PRESUMED). -/
def Obligations.FindMaxInColIsTheLastGreatestBelowTheBound : Prop :=
  ∀ (s : State) (p : Nat) (bound : Val), s.rm.configured = true → Memory.allAdmitted s.rm.matrix = true →
    Val.comparable bound = true →
    ∃ oval orow, exec (.rmFindMaxInCol p bound) s =
        .next { s with response := some { status := .ok, result := .columnMaximum oval orow } } ∧
      ((s.rm.messageLength ≤ p ∨ ∀ c, c < s.rm.nbSymbols →
          ¬ (vlt vzero (s.rm.entry p c) = true ∧ vlt (s.rm.entry p c) bound = true)) →
        oval = vzero ∧ orow = 0) ∧
      (p < s.rm.messageLength →
        (∃ c, c < s.rm.nbSymbols ∧ vlt vzero (s.rm.entry p c) = true ∧ vlt (s.rm.entry p c) bound = true) →
        vlt vzero oval = true ∧ vlt oval bound = true ∧ orow < s.rm.nbSymbols ∧ s.rm.entry p orow = oval ∧
        ∀ c, c < s.rm.nbSymbols → vlt (s.rm.entry p c) bound = true →
          vle (s.rm.entry p c) oval = true ∧ (s.rm.entry p c = oval → c ≤ orow))

/-- 43_matrix_read_ops.md section RM.FIND_MAX_IN_COL, ranked extraction (its own consequences): from a bound above
every entry of the column, the chain of searches gives the distinct positive values of the column in strictly
descending order, each once, with the greatest candidate that holds it, and nothing else. That an infinite first
bound lies above every entry is the model's choice (log 8, PRESUMED). -/
def Obligations.RankedExtractionEnumeratesTheColumn : Prop :=
  ∀ (s : State) (p fuel : Nat) (bound : Val), s.rm.configured = true →
    Memory.allAdmitted s.rm.matrix = true → Val.comparable bound = true → p < s.rm.messageLength →
    (∀ c, c < s.rm.nbSymbols → vlt (s.rm.entry p c) bound = true) → s.rm.nbSymbols ≤ fuel →
    (rankedChain p fuel bound s).Pairwise (fun x y => vlt y.1 x.1 = true) ∧
    ∀ (v : Val) (row : Nat), (v, row) ∈ rankedChain p fuel bound s ↔
      (vlt vzero v = true ∧ row < s.rm.nbSymbols ∧ s.rm.entry p row = v ∧
        ∀ c, c < s.rm.nbSymbols → s.rm.entry p c = v → c ≤ row)

/-- 43_matrix_read_ops.md section RM.READ: `RM.READ`, opcode `0x29`, answers the entry exactly as stored when both
indices are in range; it changes no state of the unit. Out of range the status `OK` and some value of `Val` are the
spec's decision D35 (log 7, DEDUCED), and the count of free values is the model's own. -/
def Obligations.ReadReturnsTheEntry : Prop :=
  (∀ idx2 idx, (encode (.rmRead idx2 idx)).op = 0x29 ∧
    (encode (.rmRead idx2 idx)).ports = { idx2 := idx2, idx := idx }) ∧
  ∀ (s : State) (idx2 idx : Nat), s.rm.configured = true →
    (idx < s.rm.messageLength → idx2 < s.rm.nbSymbols →
      exec (.rmRead idx2 idx) s = .next { s with
        response := some
          { status := .ok, result := .value (Memory.read s.rm.matrix (idx * s.rm.nbSymbols + idx2)) } }) ∧
    ((s.rm.messageLength ≤ idx ∨ s.rm.nbSymbols ≤ idx2) →
      ∃ v n, exec (.rmRead idx2 idx) s =
        .next { s with draws := n, response := some { status := .ok, result := .value v } })

/-- 43_matrix_read_ops.md section RM.DUMP (the read-out is the spec's decision D19): `RM.DUMP` answers the `S * L`
entries in transposed order, and changes no state. -/
def Obligations.DumpIsTheTransposedStore : Prop :=
  ∀ s : State, s.rm.configured = true →
    ∃ odump, exec .rmDump s =
        .next { s with response := some { status := .ok, result := .dump odump } } ∧
      odump.length = s.rm.nbSymbols * s.rm.messageLength ∧
      ∀ c p, c < s.rm.nbSymbols → p < s.rm.messageLength →
        odump[c * s.rm.messageLength + p]? = some (Memory.read s.rm.matrix (p * s.rm.nbSymbols + c))

/-- 20_memory.md section 2: no read changes either unit, whatever the store holds; and on every store an indexed
write, an in-range read or a dump, repeated, changes nothing more and gives the same response, as does a search
wherever its result is defined (an admitted store, 41_matrix_write_ops.md section "Laws and obligations", and a
bound that can be compared; elsewhere its results are free values, log 6, log 8). The canonical form of the store
is the model's invariant (log 17). -/
def Obligations.ReadsAndIndexedWritesAreIdempotent : Prop :=
  (∀ (i : Instr) (s t : State),
    (i = .rmFindMax ∨ (∃ idx val, i = .rmFindMaxInCol idx val) ∨ (∃ idx2 idx, i = .rmRead idx2 idx) ∨ i = .rmDump) →
    exec i s = .next t → t.enc = s.enc ∧ t.rm = s.rm) ∧
  ∀ (i : Instr) (s t : State), Memory.wf s.rm.matrix →
    ((∃ idx vals, i = .rmEnterSymbolAt idx vals) ∨ (∃ idx, i = .rmEnterErasureAt idx) ∨
      (∃ idx2 idx, i = .rmRead idx2 idx ∧ idx < s.rm.messageLength ∧ idx2 < s.rm.nbSymbols) ∨ i = .rmDump ∨
      (i = .rmFindMax ∧ Memory.allAdmitted s.rm.matrix = true) ∨
      (∃ idx val, i = .rmFindMaxInCol idx val ∧ Memory.allAdmitted s.rm.matrix = true ∧
        Val.comparable val = true)) →
    exec i s = .next t → exec i t = .next t

/-- The model's choice (log 6, log 8), where 41_matrix_write_ops.md section "Laws and obligations" gives no result:
on a store with an entry that is not admitted, and for a bound that cannot be compared, the searches and the
normalisation still complete with status `OK`; nothing is known of the values they give, and everything else is as
ever. -/
def Obligations.UndefinedResultsAreFreeValues : Prop :=
  ∀ s : State, s.rm.configured = true →
    (Memory.allAdmitted s.rm.matrix = false →
      (∃ mem n, exec .rmNormalize s = .next { s with
        rm := { s.rm with matrix := mem }, draws := n, response := some { status := .ok, result := .none } }) ∧
      (∃ v row col n, exec .rmFindMax s = .next { s with
        draws := n, response := some { status := .ok, result := .maximum v row col } })) ∧
    ∀ idx bound, (Memory.allAdmitted s.rm.matrix = false ∨ Val.comparable bound = false) →
      ∃ v row n, exec (.rmFindMaxInCol idx bound) s = .next { s with
        draws := n, response := some { status := .ok, result := .columnMaximum v row } }
end

