-- ==== Sys2Proof/Laws/Bits.lean ====
section
/-!
SUPPORT. The integer primitives of 00_scope.md R10: their bits, their bounds, and that they are the operations
on bit vectors of the same names.
-/

namespace Sys2Proof.Machine

/-! ### Numbers from bits -/

theorem ofBits_lt (w : Nat) (f : Nat → Bool) : ofBits w f < 2 ^ w := by
  induction w with
  | zero => simp [ofBits]
  | succ w ih =>
    unfold ofBits
    rw [Nat.pow_succ]
    split <;> omega

theorem testBit_ofBits (w : Nat) (f : Nat → Bool) (b : Nat) :
    (ofBits w f).testBit b = (decide (b < w) && f b) := by
  induction w with
  | zero => simp [ofBits]
  | succ w ih =>
    have hlt := ofBits_lt w f
    unfold ofBits
    rcases Nat.lt_trichotomy b w with h | h | h
    · have : b < w + 1 := by omega
      split
      · rw [Nat.add_comm, Nat.testBit_two_pow_add_gt h]
        simp [ih, h, this]
      · simp [ih, h, this]
    · subst h
      split
      · rename_i hf
        rw [Nat.add_comm, Nat.testBit_two_pow_add_eq]
        simp [ih, hf]
      · rename_i hf
        simp [ih, hf]
    · have hnot : ¬ b < w + 1 := by omega
      have hlt' : ofBits w f + (if f w = true then 2 ^ w else 0) < 2 ^ b := by
        have h1 : 2 ^ (w + 1) ≤ 2 ^ b := Nat.pow_le_pow_right (by decide) (by omega)
        rw [Nat.pow_succ] at h1
        split <;> omega
      rw [Nat.testBit_lt_two_pow hlt']
      simp [hnot]

theorem ofBits_congr {w : Nat} {f g : Nat → Bool} (h : ∀ b, b < w → f b = g b) :
    ofBits w f = ofBits w g := by
  induction w with
  | zero => rfl
  | succ w ih =>
    unfold ofBits
    rw [ih (fun b hb => h b (by omega)), h w (by omega)]

/-! ### Shifts and the register update -/

theorem shiftLeft_lt (w : Nat) (a s : Nat) : shiftLeft w a s < 2 ^ w :=
  Nat.mod_lt _ (Nat.two_pow_pos w)

theorem testBit_shiftLeft (w a s b : Nat) :
    (shiftLeft w a s).testBit b = (decide (b < w) && (decide (s ≤ b) && a.testBit (b - s))) := by
  unfold shiftLeft
  rw [Nat.testBit_mod_two_pow, ← Nat.shiftLeft_eq, Nat.testBit_shiftLeft]

theorem testBit_shiftRight (a s b : Nat) : (shiftRight a s).testBit b = a.testBit (s + b) := by
  unfold shiftRight
  rw [← Nat.shiftRight_eq_div_pow, Nat.testBit_shiftRight]

/-- The left shift is the left shift of bit vectors. -/
theorem shiftLeft_eq_bitvec (w a s : Nat) : shiftLeft w a s = (BitVec.ofNat w a <<< s).toNat := by
  unfold shiftLeft
  rw [BitVec.toNat_shiftLeft, BitVec.toNat_ofNat, Nat.shiftLeft_eq]
  simp [Nat.mod_mul_mod]

/-- The right shift is the logical right shift of bit vectors. -/
theorem shiftRight_eq_bitvec {w a : Nat} (h : a < 2 ^ w) (s : Nat) :
    shiftRight a s = (BitVec.ofNat w a >>> s).toNat := by
  unfold shiftRight
  rw [BitVec.toNat_ushiftRight, BitVec.toNat_ofNat, Nat.mod_eq_of_lt h, Nat.shiftRight_eq_div_pow]

theorem testBit_bitWord (b : Bool) (i : Nat) : (bitWord b).testBit i = (decide (i = 0) && b) := by
  cases b
  · simp [bitWord]
  · by_cases h : i = 0
    · simp [bitWord, h]
    · obtain ⟨k, rfl⟩ := Nat.exists_eq_succ_of_ne_zero h
      simp [bitWord, Nat.testBit_succ]

theorem bitWord_lt {w : Nat} (hw : 1 ≤ w) (b : Bool) : bitWord b < 2 ^ w := by
  have : 2 ^ 1 ≤ 2 ^ w := Nat.pow_le_pow_right (by decide) hw
  cases b
  · simp [bitWord]
  · simp only [bitWord, if_true]; omega

/-- The bits of a register after an insertion (40_encoder_ops.md R103): bit 0 is the new bit; with `no_step` the
others stay, without it each takes the bit below. -/
theorem testBit_insertBit {w : Nat} (hw : 1 ≤ w) (flag b : Bool) (r : Nat) (i : Nat) :
    (insertBit w flag b r).testBit i =
      (decide (i < w) && (if i = 0 then b else if flag then r.testBit i else r.testBit (i - 1))) := by
  unfold insertBit
  rw [Nat.testBit_or, testBit_shiftLeft, testBit_bitWord]
  rcases Nat.eq_zero_or_pos i with h | h
  · subst h
    have : 0 < w := hw
    simp [this]
  · have h0 : ¬ i = 0 := by omega
    have h1 : 1 ≤ i := h
    cases flag
    · simp [h0, h1]
    · simp only [if_true, testBit_shiftRight]
      simp [h0, h1, show 1 + (i - 1) = i by omega]

theorem insertBit_lt {w : Nat} (hw : 1 ≤ w) (flag b : Bool) (r : Nat) : insertBit w flag b r < 2 ^ w :=
  Nat.or_lt_two_pow (shiftLeft_lt _ _ _) (bitWord_lt hw b)

/-- A replace after an insertion is the insertion of the last bit alone, from the register as it was before
(40_encoder_ops.md R105 items 2 and 3). -/
theorem insertBit_replace {w : Nat} (hw : 1 ≤ w) (flag a b : Bool) (r : Nat) :
    insertBit w true b (insertBit w flag a r) = insertBit w flag b r := by
  apply Nat.eq_of_testBit_eq
  intro i
  simp only [testBit_insertBit hw]
  by_cases h : i = 0
  · simp [h]
  · by_cases h2 : i < w <;> cases flag <;> simp [h, h2]

/-- The insertion is linear over GF(2). -/
theorem insertBit_xor {w : Nat} (hw : 1 ≤ w) (flag a b : Bool) (r q : Nat) :
    insertBit w flag (xor a b) (r ^^^ q) = insertBit w flag a r ^^^ insertBit w flag b q := by
  apply Nat.eq_of_testBit_eq
  intro i
  rw [Nat.testBit_xor, testBit_insertBit hw, testBit_insertBit hw, testBit_insertBit hw]
  by_cases h : i = 0
  · subst h
    simp [Nat.lt_of_lt_of_le Nat.zero_lt_one hw]
  · by_cases h2 : i < w <;> cases flag <;> simp [h, h2]

/-! ### Population count and parity -/

theorem popcount_eq_sum (w : Nat) (a : Nat) :
    popcount w a = ∑ b ∈ Finset.range w, if a.testBit b then 1 else 0 := by
  induction w with
  | zero => simp [popcount]
  | succ w ih => rw [Finset.sum_range_succ, ← ih]; rfl

theorem popcount_congr {w : Nat} {a b : Nat} (h : ∀ i, i < w → a.testBit i = b.testBit i) :
    popcount w a = popcount w b := by
  induction w with
  | zero => rfl
  | succ w ih =>
    unfold popcount
    rw [ih (fun i hi => h i (by omega)), h w (by omega)]

theorem parity_zero (a : Nat) : parity 0 a = false := by simp [parity, popcount]

theorem parity_succ (w : Nat) (a : Nat) : parity (w + 1) a = xor (parity w a) (a.testBit w) := by
  unfold parity
  rw [popcount]
  rcases Nat.mod_two_eq_zero_or_one (popcount w a) with h | h <;> cases hb : a.testBit w <;>
    simp [h] <;> omega

theorem parity_xor (w : Nat) (a b : Nat) : parity w (a ^^^ b) = xor (parity w a) (parity w b) := by
  induction w with
  | zero => simp [parity_zero]
  | succ w ih =>
    rw [parity_succ, parity_succ, parity_succ, ih, Nat.testBit_xor]
    cases parity w a <;> cases parity w b <;> cases a.testBit w <;> cases b.testBit w <;> rfl

/-! ### Bit reversal -/

theorem bitrev_lt (i w : Nat) : bitrev i w < 2 ^ w := ofBits_lt _ _

theorem testBit_bitrev (i w b : Nat) :
    (bitrev i w).testBit b = (decide (b < w) && i.testBit (w - 1 - b)) := testBit_ofBits _ _ _

/-- The bit reversal is its own inverse on `w`-bit numbers. -/
theorem bitrev_bitrev {i w : Nat} (h : i < 2 ^ w) : bitrev (bitrev i w) w = i := by
  apply Nat.eq_of_testBit_eq
  intro b
  simp only [testBit_bitrev]
  by_cases hb : b < w
  · have e : w - 1 - (w - 1 - b) = b := by omega
    rw [e]
    simp [hb, show w - 1 - b < w by omega]
  · have hle : 2 ^ w ≤ 2 ^ b := Nat.pow_le_pow_right (by decide) (by omega)
    rw [Nat.testBit_lt_two_pow (Nat.lt_of_lt_of_le h hle)]
    simp [hb]

theorem bitrev_injOn {i j w : Nat} (hi : i < 2 ^ w) (hj : j < 2 ^ w) (h : bitrev i w = bitrev j w) : i = j := by
  rw [← bitrev_bitrev hi, h, bitrev_bitrev hj]

/-- With one more bit of width, an even number reverses as its half does in the width itself: the closed form of
42_matrix_transform_ops.md R144 for powers of two. -/
theorem bitrev_double (d q : Nat) : bitrev (2 * d) (q + 1) = bitrev d q := by
  apply Nat.eq_of_testBit_eq
  intro b
  rw [testBit_bitrev, testBit_bitrev]
  rcases Nat.lt_trichotomy b q with h | h | h
  · have e : q + 1 - 1 - b = (q - 1 - b) + 1 := by omega
    rw [e, Nat.testBit_succ]
    simp [h, show b < q + 1 by omega]
  · subst h
    simp
  · simp [show ¬ b < q + 1 by omega, show ¬ b < q by omega]

/-! ### The ceiling of the logarithm -/

/-- `clog2(x)` is the least `c` with `2^c ≥ x`. -/
theorem clog2_le_iff (x c : Nat) : clog2 x ≤ c ↔ x ≤ 2 ^ c := by
  have hex : ∃ c, c ∈ List.range (x + 1) ∧ decide (x ≤ 2 ^ c) = true :=
    ⟨x, by simp, by simpa using Nat.le_of_lt (Nat.lt_two_pow_self)⟩
  unfold clog2
  cases hf : (List.range (x + 1)).find? (fun c => decide (x ≤ 2 ^ c)) with
  | none =>
    rw [List.find?_eq_none] at hf
    obtain ⟨d, hd, hx⟩ := hex
    exact absurd hx (hf d hd)
  | some d =>
    rw [List.find?_range_eq_some] at hf
    obtain ⟨hd, hmem, hbelow⟩ := hf
    simp only [Option.getD_some]
    constructor
    · intro h
      exact Nat.le_trans (by simpa using hd) (Nat.pow_le_pow_right (by decide) h)
    · intro h
      by_contra hlt
      have := hbelow c (by omega)
      simp at this
      omega

theorem le_two_pow_clog2 (x : Nat) : x ≤ 2 ^ clog2 x := (clog2_le_iff x _).1 (Nat.le_refl _)

end Sys2Proof.Machine
end

