-- ==== Sys2Proof/Laws/Decode.lean ====
section
/-!
SUPPORT. The decoder: what fits on a port passes it unchanged, what comes from a port fits, and the opcode fields.
-/

namespace Sys2Proof

theorem wordOnPort_of_fits {w v : Nat} (h : wordFits w v = true) : wordOnPort w v = v :=
  Nat.mod_eq_of_lt (by simpa [wordFits] using h)

theorem wordFits_onPort (w v : Nat) : wordFits w (wordOnPort w v) = true := by
  exact decide_eq_true (Nat.mod_lt v (Nat.two_pow_pos w))

theorem natOnPort_of_fits {w : Option Nat} {v : Nat} (h : natFits w v = true) : natOnPort w v = v := by
  cases w with
  | none => rfl
  | some w => exact Nat.mod_eq_of_lt (by simpa [natFits] using h)

theorem natFits_onPort (w : Option Nat) (v : Nat) : natFits w (natOnPort w v) = true := by
  cases w with
  | none => rfl
  | some w => exact decide_eq_true (Nat.mod_lt v (Nat.two_pow_pos w))

theorem map_eq_self_of_all {α : Type} {fits : α → Bool} {port : α → α} (hp : ∀ v, fits v = true → port v = v)
    {l : List α} (h : l.all fits = true) : l.map port = l := by
  rw [List.all_eq_true] at h
  calc l.map port = l.map id := List.map_congr_left (fun v hv => hp v (h v hv))
    _ = l := List.map_id l

theorem all_map_port {α : Type} {fits : α → Bool} {port : α → α} (hp : ∀ v, fits (port v) = true) (l : List α) :
    (l.map port).all fits = true := by
  rw [List.all_eq_true]
  intro v hv
  obtain ⟨w, _, rfl⟩ := List.mem_map.1 hv
  exact hp w

/-- A port passes the value it already carries. -/
theorem Ports.latch_latch (p : Params) (q : Ports) : (q.latch p).latch p = q.latch p := by
  have hw : ∀ w v, wordOnPort w (wordOnPort w v) = wordOnPort w v :=
    fun w v => wordOnPort_of_fits (wordFits_onPort w v)
  have hn : ∀ w v, natOnPort w (natOnPort w v) = natOnPort w v :=
    fun w v => natOnPort_of_fits (natFits_onPort w v)
  simp [Ports.latch, hw, hn, Function.comp_def]

/-- What the decoder reads from fields fits on the ports. -/
theorem decodeFields_wf {p : Params} {unit func : Nat} {q : Ports} {i : Instr}
    (h : decodeFields unit func (q.latch p) = some i) : i.wf p = true := by
  unfold decodeFields decodeEnc decodeRm at h
  split at h
  · split at h <;> simp only [Option.some.injEq, reduceCtorEq] at h <;> subst h <;>
      simp [Instr.wf, Ports.latch, wordFits_onPort, natFits_onPort]
  · split at h <;> simp only [Option.some.injEq, reduceCtorEq] at h <;> subst h <;>
      simp [Instr.wf, Ports.latch, natFits_onPort]
  · simp at h

/-- The decoder reads the two fields of the opcode and then the ports. -/
theorem decode_of_fields {p : Params} {op : BitVec 8} {ports : Ports} {unit func : Nat} {i : Instr}
    (hu : unitField op = unit) (hf : funcField op = func)
    (h : decodeFields unit func (ports.latch p) = some i) : decode p op ports = .ok i := by
  subst hu hf
  unfold decode
  rw [h]

/-- What the decoder accepts is well-formed. -/
theorem decode_wf {p : Params} {op : BitVec 8} {ports : Ports} {i : Instr}
    (h : decode p op ports = .ok i) : i.wf p = true := by
  unfold decode at h
  split at h
  · cases h
    exact decodeFields_wf ‹_›
  · simp at h

end Sys2Proof
end

