-- ==== Sys2Proof/Laws/State.lean ====
section
/-!
SUPPORT. One lemma per field per update of the state, and the shared outcome operations, each said once.
-/

namespace Sys2Proof.Machine

/-! ### The whole state -/

@[simp] theorem State.withEnc_params (s : State) (u : EncUnit) :
    (s.withEnc u).params = s.params := rfl

@[simp] theorem State.withEnc_enc (s : State) (u : EncUnit) :
    (s.withEnc u).enc = u := rfl

@[simp] theorem State.withEnc_rm (s : State) (u : EncUnit) :
    (s.withEnc u).rm = s.rm := rfl

@[simp] theorem State.withEnc_inputs (s : State) (u : EncUnit) :
    (s.withEnc u).inputs = s.inputs := rfl

@[simp] theorem State.withEnc_response (s : State) (u : EncUnit) :
    (s.withEnc u).response = s.response := rfl

@[simp] theorem State.withEnc_draws (s : State) (u : EncUnit) :
    (s.withEnc u).draws = s.draws := rfl

@[simp] theorem State.withRm_params (s : State) (u : RmUnit) :
    (s.withRm u).params = s.params := rfl

@[simp] theorem State.withRm_enc (s : State) (u : RmUnit) :
    (s.withRm u).enc = s.enc := rfl

@[simp] theorem State.withRm_rm (s : State) (u : RmUnit) :
    (s.withRm u).rm = u := rfl

@[simp] theorem State.withRm_inputs (s : State) (u : RmUnit) :
    (s.withRm u).inputs = s.inputs := rfl

@[simp] theorem State.withRm_response (s : State) (u : RmUnit) :
    (s.withRm u).response = s.response := rfl

@[simp] theorem State.withRm_draws (s : State) (u : RmUnit) :
    (s.withRm u).draws = s.draws := rfl

@[simp] theorem State.drawn_params (s : State) (n : Nat) :
    (s.drawn n).params = s.params := rfl

@[simp] theorem State.drawn_enc (s : State) (n : Nat) :
    (s.drawn n).enc = s.enc := rfl

@[simp] theorem State.drawn_rm (s : State) (n : Nat) :
    (s.drawn n).rm = s.rm := rfl

@[simp] theorem State.drawn_inputs (s : State) (n : Nat) :
    (s.drawn n).inputs = s.inputs := rfl

@[simp] theorem State.drawn_response (s : State) (n : Nat) :
    (s.drawn n).response = s.response := rfl

@[simp] theorem State.drawn_draws (s : State) (n : Nat) :
    (s.drawn n).draws = s.draws + n := rfl

@[simp] theorem State.withInputs_params (s : State) (rest : List HostInput) :
    (s.withInputs rest).params = s.params := rfl

@[simp] theorem State.withInputs_enc (s : State) (rest : List HostInput) :
    (s.withInputs rest).enc = s.enc := rfl

@[simp] theorem State.withInputs_rm (s : State) (rest : List HostInput) :
    (s.withInputs rest).rm = s.rm := rfl

@[simp] theorem State.withInputs_inputs (s : State) (rest : List HostInput) :
    (s.withInputs rest).inputs = rest := rfl

@[simp] theorem State.withInputs_response (s : State) (rest : List HostInput) :
    (s.withInputs rest).response = s.response := rfl

@[simp] theorem State.withInputs_draws (s : State) (rest : List HostInput) :
    (s.withInputs rest).draws = s.draws := rfl

@[simp] theorem State.issue_params (s : State) (c : Command) :
    (s.issue c).params = s.params := rfl

@[simp] theorem State.issue_enc (s : State) (c : Command) :
    (s.issue c).enc = s.enc := rfl

@[simp] theorem State.issue_rm (s : State) (c : Command) :
    (s.issue c).rm = s.rm := rfl

@[simp] theorem State.issue_inputs (s : State) (c : Command) :
    (s.issue c).inputs = .command c :: s.inputs := rfl

@[simp] theorem State.issue_response (s : State) (c : Command) :
    (s.issue c).response = s.response := rfl

@[simp] theorem State.issue_draws (s : State) (c : Command) :
    (s.issue c).draws = s.draws := rfl

/-! ### The unit `ENC` -/

@[simp] theorem EncUnit.writeRegs_configured (u : EncUnit) (k : Nat) (f : Nat → Nat) :
    (u.writeRegs k f).configured = u.configured := rfl

@[simp] theorem EncUnit.writeRegs_constraints (u : EncUnit) (k : Nat) (f : Nat → Nat) :
    (u.writeRegs k f).constraints = u.constraints := rfl

@[simp] theorem EncUnit.writeRegs_n (u : EncUnit) (k : Nat) (f : Nat → Nat) :
    (u.writeRegs k f).n = u.n := rfl

@[simp] theorem EncUnit.writeRegs_m (u : EncUnit) (k : Nat) (f : Nat → Nat) :
    (u.writeRegs k f).m = u.m := rfl

@[simp] theorem EncUnit.writeRegs_genpoly (u : EncUnit) (k : Nat) (f : Nat → Nat) :
    (u.writeRegs k f).genpoly = u.genpoly := rfl

@[simp] theorem EncUnit.writeRegs_reg (u : EncUnit) (k : Nat) (f : Nat → Nat) :
    (u.writeRegs k f).reg = (List.range k).map f := rfl

@[simp] theorem EncUnit.shiftIn_configured (u : EncUnit) (p : Params) (sym : Nat) (flag : Bool) :
    (u.shiftIn p sym flag).configured = u.configured := rfl

@[simp] theorem EncUnit.shiftIn_constraints (u : EncUnit) (p : Params) (sym : Nat) (flag : Bool) :
    (u.shiftIn p sym flag).constraints = u.constraints := rfl

@[simp] theorem EncUnit.shiftIn_n (u : EncUnit) (p : Params) (sym : Nat) (flag : Bool) :
    (u.shiftIn p sym flag).n = u.n := rfl

@[simp] theorem EncUnit.shiftIn_m (u : EncUnit) (p : Params) (sym : Nat) (flag : Bool) :
    (u.shiftIn p sym flag).m = u.m := rfl

@[simp] theorem EncUnit.shiftIn_genpoly (u : EncUnit) (p : Params) (sym : Nat) (flag : Bool) :
    (u.shiftIn p sym flag).genpoly = u.genpoly := rfl

/-! ### The unit `RM` -/

@[simp] theorem RmUnit.rewrite_configured (u : RmUnit) (g : Nat → Nat → Val) :
    (u.rewrite g).configured = u.configured := rfl

@[simp] theorem RmUnit.rewrite_nbSymbolsLog2 (u : RmUnit) (g : Nat → Nat → Val) :
    (u.rewrite g).nbSymbolsLog2 = u.nbSymbolsLog2 := rfl

@[simp] theorem RmUnit.rewrite_messageLength (u : RmUnit) (g : Nat → Nat → Val) :
    (u.rewrite g).messageLength = u.messageLength := rfl

@[simp] theorem RmUnit.rewrite_matrix (u : RmUnit) (g : Nat → Nat → Val) :
    (u.rewrite g).matrix = Memory.tabulate u.size (fun a => g (a / u.nbSymbols) (a % u.nbSymbols)) := rfl

@[simp] theorem RmUnit.rewrite_messageSymbolCount (u : RmUnit) (g : Nat → Nat → Val) :
    (u.rewrite g).messageSymbolCount = u.messageSymbolCount := rfl

@[simp] theorem RmUnit.normalized_configured (u : RmUnit) (f : Numeric) :
    (u.normalized f).configured = u.configured := rfl

@[simp] theorem RmUnit.normalized_nbSymbolsLog2 (u : RmUnit) (f : Numeric) :
    (u.normalized f).nbSymbolsLog2 = u.nbSymbolsLog2 := rfl

@[simp] theorem RmUnit.normalized_messageLength (u : RmUnit) (f : Numeric) :
    (u.normalized f).messageLength = u.messageLength := rfl

@[simp] theorem RmUnit.normalized_messageSymbolCount (u : RmUnit) (f : Numeric) :
    (u.normalized f).messageSymbolCount = u.messageSymbolCount := rfl

@[simp] theorem RmUnit.scrambled_configured (u : RmUnit) (k : Nat) :
    (u.scrambled k).configured = u.configured := rfl

@[simp] theorem RmUnit.scrambled_nbSymbolsLog2 (u : RmUnit) (k : Nat) :
    (u.scrambled k).nbSymbolsLog2 = u.nbSymbolsLog2 := rfl

@[simp] theorem RmUnit.scrambled_messageLength (u : RmUnit) (k : Nat) :
    (u.scrambled k).messageLength = u.messageLength := rfl

@[simp] theorem RmUnit.scrambled_messageSymbolCount (u : RmUnit) (k : Nat) :
    (u.scrambled k).messageSymbolCount = u.messageSymbolCount := rfl

@[simp] theorem RmUnit.deinterleaved_configured (u : RmUnit) : u.deinterleaved.configured = u.configured := rfl

@[simp] theorem RmUnit.deinterleaved_nbSymbolsLog2 (u : RmUnit) : u.deinterleaved.nbSymbolsLog2 = u.nbSymbolsLog2 := rfl

@[simp] theorem RmUnit.deinterleaved_messageLength (u : RmUnit) : u.deinterleaved.messageLength = u.messageLength := rfl

@[simp] theorem RmUnit.deinterleaved_messageSymbolCount (u : RmUnit) : u.deinterleaved.messageSymbolCount = u.messageSymbolCount := rfl

@[simp] theorem RmUnit.writeColumn_configured (u : RmUnit) (p : Nat) (vals : List Val) : (u.writeColumn p vals).configured = u.configured := by
  unfold RmUnit.writeColumn; split <;> rfl

@[simp] theorem RmUnit.writeColumn_nbSymbolsLog2 (u : RmUnit) (p : Nat) (vals : List Val) : (u.writeColumn p vals).nbSymbolsLog2 = u.nbSymbolsLog2 := by
  unfold RmUnit.writeColumn; split <;> rfl

@[simp] theorem RmUnit.writeColumn_messageLength (u : RmUnit) (p : Nat) (vals : List Val) : (u.writeColumn p vals).messageLength = u.messageLength := by
  unfold RmUnit.writeColumn; split <;> rfl

@[simp] theorem RmUnit.writeColumn_messageSymbolCount (u : RmUnit) (p : Nat) (vals : List Val) : (u.writeColumn p vals).messageSymbolCount = u.messageSymbolCount := by
  unfold RmUnit.writeColumn; split <;> rfl

@[simp] theorem RmUnit.appendColumn_configured (u : RmUnit) (vals : List Val) :
    (u.appendColumn vals).configured = u.configured := by
  unfold RmUnit.appendColumn; split <;> simp

@[simp] theorem RmUnit.appendColumn_nbSymbolsLog2 (u : RmUnit) (vals : List Val) :
    (u.appendColumn vals).nbSymbolsLog2 = u.nbSymbolsLog2 := by
  unfold RmUnit.appendColumn; split <;> simp

@[simp] theorem RmUnit.appendColumn_messageLength (u : RmUnit) (vals : List Val) :
    (u.appendColumn vals).messageLength = u.messageLength := by
  unfold RmUnit.appendColumn; split <;> simp

@[simp] theorem RmUnit.rewrite_nbSymbols (u : RmUnit) (g : Nat → Nat → Val) : (u.rewrite g).nbSymbols = u.nbSymbols := rfl

@[simp] theorem RmUnit.rewrite_size (u : RmUnit) (g : Nat → Nat → Val) : (u.rewrite g).size = u.size := rfl

@[simp] theorem RmUnit.normalized_nbSymbols (u : RmUnit) (f : Numeric) : (u.normalized f).nbSymbols = u.nbSymbols := rfl

@[simp] theorem RmUnit.normalized_size (u : RmUnit) (f : Numeric) : (u.normalized f).size = u.size := rfl

@[simp] theorem RmUnit.scrambled_nbSymbols (u : RmUnit) (k : Nat) : (u.scrambled k).nbSymbols = u.nbSymbols := rfl

@[simp] theorem RmUnit.scrambled_size (u : RmUnit) (k : Nat) : (u.scrambled k).size = u.size := rfl

@[simp] theorem RmUnit.deinterleaved_nbSymbols (u : RmUnit) : u.deinterleaved.nbSymbols = u.nbSymbols := rfl

@[simp] theorem RmUnit.deinterleaved_size (u : RmUnit) : u.deinterleaved.size = u.size := rfl

@[simp] theorem RmUnit.writeColumn_nbSymbols (u : RmUnit) (p : Nat) (vals : List Val) : (u.writeColumn p vals).nbSymbols = u.nbSymbols := by
  simp [RmUnit.nbSymbols]

@[simp] theorem RmUnit.writeColumn_size (u : RmUnit) (p : Nat) (vals : List Val) : (u.writeColumn p vals).size = u.size := by
  simp [RmUnit.nbSymbols, RmUnit.size]

@[simp] theorem RmUnit.appendColumn_nbSymbols (u : RmUnit) (vals : List Val) : (u.appendColumn vals).nbSymbols = u.nbSymbols := by
  simp [RmUnit.nbSymbols]

@[simp] theorem RmUnit.appendColumn_size (u : RmUnit) (vals : List Val) : (u.appendColumn vals).size = u.size := by
  simp [RmUnit.nbSymbols, RmUnit.size]

theorem RmUnit.nbSymbols_pos (u : RmUnit) : 0 < u.nbSymbols := Nat.two_pow_pos _

/-! ### Outcomes -/

theorem respond_eq (r : Result) (s : State) :
    respond r s = .next { s with response := some { status := .ok, result := r } } := rfl

theorem raise_eq (st : Status) (s : State) :
    raise st s = .next { s with response := some { status := st, result := .none } } := rfl

theorem whenEncConfigured_of_configured {s : State} (h : s.enc.configured = true)
    (run : Host.Outcome State Fault Refusal) : whenEncConfigured s run = run := by
  simp [whenEncConfigured, h]

theorem whenEncConfigured_of_unconfigured {s : State} (h : s.enc.configured = false)
    (run : Host.Outcome State Fault Refusal) : whenEncConfigured s run = raise .errNotConfigured s := by
  simp [whenEncConfigured, h]

theorem whenRmConfigured_of_configured {s : State} (h : s.rm.configured = true)
    (run : Host.Outcome State Fault Refusal) : whenRmConfigured s run = run := by
  simp [whenRmConfigured, h]

theorem whenRmConfigured_of_unconfigured {s : State} (h : s.rm.configured = false)
    (run : Host.Outcome State Fault Refusal) : whenRmConfigured s run = raise .errNotConfigured s := by
  simp [whenRmConfigured, h]

theorem whenShaped_of_true {ok : Bool} (h : ok = true) (s : State)
    (run : Host.Outcome State Fault Refusal) : whenShaped ok s run = run := by
  simp [whenShaped, h]

theorem whenShaped_of_false {ok : Bool} (h : ok = false) (s : State)
    (run : Host.Outcome State Fault Refusal) : whenShaped ok s run = raise .errIllegal s := by
  simp [whenShaped, h]

/-- What an operation of `ENC` can answer: it raised `ERR_NOT_CONFIGURED`, or it ran. -/
theorem whenEncConfigured_next {s t : State} {run : Host.Outcome State Fault Refusal}
    (h : whenEncConfigured s run = .next t) :
    (s.enc.configured = false ∧ raise .errNotConfigured s = .next t) ∨
      (s.enc.configured = true ∧ run = .next t) := by
  unfold whenEncConfigured at h
  split at h
  · exact .inr ⟨‹_›, h⟩
  · exact .inl ⟨Bool.eq_false_iff.2 ‹_›, h⟩

/-- What an operation of `RM` can answer: it raised `ERR_NOT_CONFIGURED`, or it ran. -/
theorem whenRmConfigured_next {s t : State} {run : Host.Outcome State Fault Refusal}
    (h : whenRmConfigured s run = .next t) :
    (s.rm.configured = false ∧ raise .errNotConfigured s = .next t) ∨
      (s.rm.configured = true ∧ run = .next t) := by
  unfold whenRmConfigured at h
  split at h
  · exact .inr ⟨‹_›, h⟩
  · exact .inl ⟨Bool.eq_false_iff.2 ‹_›, h⟩

/-- What an operation with a list operand can answer: it raised `ERR_ILLEGAL`, or it ran. -/
theorem whenShaped_next {ok : Bool} {s t : State} {run : Host.Outcome State Fault Refusal}
    (h : whenShaped ok s run = .next t) :
    (ok = false ∧ raise .errIllegal s = .next t) ∨ (ok = true ∧ run = .next t) := by
  unfold whenShaped at h
  split at h
  · exact .inr ⟨‹_›, h⟩
  · exact .inl ⟨Bool.eq_false_iff.2 ‹_›, h⟩

end Sys2Proof.Machine
end

