-- ==== Sys2Proof/Laws/Encoder.lean ====
section
/-!
SUPPORT. The unit `ENC`: its register accesses, the output symbol bit by bit, the construction, and that each of
its operations keeps the invariant of the unit.
-/

namespace Sys2Proof.Machine

/-! ### Register accesses -/

theorem getD_map_range {α : Type} (k : Nat) (f : Nat → α) (d : α) {j : Nat} (h : j < k) :
    ((List.range k).map f).getD j d = f j := by
  rw [List.getD_eq_getElem _ _ (by simpa using h)]
  simp

@[simp] theorem EncUnit.readReg_writeRegs (u : EncUnit) {k j : Nat} (f : Nat → Nat) (h : j < k) :
    (u.writeRegs k f).readReg j = f j := getD_map_range k f 0 h

theorem EncUnit.readReg_shiftIn (u : EncUnit) (p : Params) (sym : Nat) (flag : Bool) {j : Nat} (h : j < p.k) :
    (u.shiftIn p sym flag).readReg j = insertBit p.wR flag (symbolBit sym j) (u.readReg j) :=
  EncUnit.readReg_writeRegs u _ h

/-- A list is what its elements are, one by one. -/
theorem map_range_getD {α : Type} (l : List α) (d : α) : (List.range l.length).map (fun j => l.getD j d) = l := by
  apply List.ext_getElem
  · simp
  · intro i h1 h2
    simp [List.getElem?_eq_getElem h2]

/-- With `K` registers, reading them all gives the register list. -/
theorem EncUnit.readRegs_eq {u : EncUnit} {k : Nat} (h : u.reg.length = k) : u.readRegs k = u.reg := by
  subst h
  exact map_range_getD u.reg 0

@[simp] theorem EncUnit.mask_writeRegs (u : EncUnit) (k : Nat) (f : Nat → Nat) (j i : Nat) :
    (u.writeRegs k f).mask j i = u.mask j i := rfl

@[simp] theorem EncUnit.mask_shiftIn (u : EncUnit) (p : Params) (sym : Nat) (flag : Bool) (j i : Nat) :
    (u.shiftIn p sym flag).mask j i = u.mask j i := rfl

/-! ### The output symbol (40_encoder_ops.md R104) -/

/-- An output bit is the sum of the population counts, taken mod 2 (R104). -/
theorem EncUnit.outputBit_eq (u : EncUnit) (w i k : Nat) :
    u.outputBit w i k =
      decide ((∑ j ∈ Finset.range k, popcount w (u.readReg j &&& u.mask j i)) % 2 = 1) := by
  induction k with
  | zero => simp [EncUnit.outputBit]
  | succ k ih =>
    rw [Finset.sum_range_succ, EncUnit.outputBit, ih, parity]
    generalize (∑ j ∈ Finset.range k, popcount w (u.readReg j &&& u.mask j i)) = a
    generalize popcount w (u.readReg k &&& u.mask k i) = b
    rcases Nat.mod_two_eq_zero_or_one a with ha | ha <;> rcases Nat.mod_two_eq_zero_or_one b with hb | hb <;>
      simp [ha, hb, Nat.add_mod]

/-- An output bit depends only on the `k` registers and masks it reads. -/
theorem EncUnit.outputBit_congr {u v : EncUnit} (w i : Nat) {k : Nat}
    (h : ∀ j, j < k → u.readReg j &&& u.mask j i = v.readReg j &&& v.mask j i) :
    u.outputBit w i k = v.outputBit w i k := by
  induction k with
  | zero => rfl
  | succ k ih =>
    unfold EncUnit.outputBit
    rw [ih (fun j hj => h j (by omega)), h k (by omega)]

/-- An output bit is linear over GF(2) in the registers. -/
theorem EncUnit.outputBit_xor {u u1 u2 : EncUnit} (w i : Nat) {k : Nat}
    (hr : ∀ j, j < k → u.readReg j = u1.readReg j ^^^ u2.readReg j)
    (h1 : ∀ j, j < k → u1.mask j i = u.mask j i) (h2 : ∀ j, j < k → u2.mask j i = u.mask j i) :
    u.outputBit w i k = xor (u1.outputBit w i k) (u2.outputBit w i k) := by
  induction k with
  | zero => rfl
  | succ k ih =>
    unfold EncUnit.outputBit
    rw [ih (fun j hj => hr j (by omega)) (fun j hj => h1 j (by omega)) (fun j hj => h2 j (by omega)),
      hr k (by omega), h1 k (by omega), h2 k (by omega), Nat.and_xor_distrib_right, parity_xor]
    cases u1.outputBit w i k <;> cases u2.outputBit w i k <;> cases parity w (u1.readReg k &&& u.mask k i) <;>
      cases parity w (u2.readReg k &&& u.mask k i) <;> rfl

theorem EncUnit.testBit_outputSymbol (u : EncUnit) (p : Params) (i : Nat) :
    (u.outputSymbol p).testBit i = (decide (i < u.n) && u.outputBit p.wR i p.k) := testBit_ofBits _ _ _

/-! ### The construction (R100, R101) -/

theorem minLength_le {rows : List (List Nat)} {row : List Nat} (h : row ∈ rows) :
    minLength rows ≤ row.length := by
  unfold minLength
  cases hm : (rows.map List.length).min? with
  | none =>
    rw [List.min?_eq_none_iff, List.map_eq_nil_iff] at hm
    subst hm
    simp at h
  | some a =>
    rw [List.min?_eq_some_iff] at hm
    exact hm.2 _ (List.mem_map.2 ⟨row, h, rfl⟩)

theorem minLength_attained {rows : List (List Nat)} (h : rows ≠ []) :
    ∃ row ∈ rows, row.length = minLength rows := by
  unfold minLength
  cases hm : (rows.map List.length).min? with
  | none =>
    rw [List.min?_eq_none_iff, List.map_eq_nil_iff] at hm
    exact absurd hm h
  | some a =>
    rw [List.min?_eq_some_iff] at hm
    exact List.mem_map.1 hm.1

theorem le_maxOf {l : List Nat} {c : Nat} (h : c ∈ l) : c ≤ maxOf l := by
  unfold maxOf
  cases hm : l.max? with
  | none =>
    rw [List.max?_eq_none_iff] at hm
    subst hm
    simp at h
  | some a =>
    rw [List.max?_eq_some_iff] at hm
    exact hm.2 _ h

theorem maxOf_mem {l : List Nat} (h : l ≠ []) : maxOf l ∈ l := by
  unfold maxOf
  cases hm : l.max? with
  | none =>
    rw [List.max?_eq_none_iff] at hm
    exact absurd hm h
  | some a =>
    rw [List.max?_eq_some_iff] at hm
    exact hm.1

/-- What passing the six checks means. -/
theorem configCause_eq_none {p : Params} {cons : List Nat} {gpoly : List (List Nat)} :
    configCause p cons gpoly = none ↔
      cons.length = p.k ∧ p.k ≤ p.wS ∧ gpoly.length = p.k ∧ (∀ c ∈ cons, c ≤ p.wR) ∧
        p.k < minLength gpoly ∧ minLength gpoly ≤ p.wS := by
  unfold configCause
  repeat' split
  all_goals simp_all

/-! ### The invariant of `ENC` -/

/-- A successful construction meets the invariant. -/
theorem EncUnit.construct_inv {p : Params} (hp : p.wf) {cons : List Nat} {gpoly : List (List Nat)}
    (hc : configCause p cons gpoly = none) (hm : ∀ row ∈ gpoly, ∀ g ∈ row, g < 2 ^ p.wR) :
    EncUnit.Inv p (EncUnit.construct p cons gpoly) := by
  obtain ⟨h1, h2, h3, h4, h5, h6⟩ := configCause_eq_none.1 hc
  have hne : cons ≠ [] := by
    intro e
    have := hp.1
    rw [e, List.length_nil] at h1
    omega
  refine ⟨h1, by simpa [EncUnit.construct] using h3, ?_, ?_, by simp [EncUnit.construct], ?_, fun _ => h5,
    fun _ => h6, fun _ => maxOf_mem hne, fun c hc => le_maxOf hc, h4 _ (maxOf_mem hne)⟩
  · intro row hrow
    obtain ⟨r, hr, rfl⟩ := List.mem_map.1 hrow
    simpa [EncUnit.construct] using minLength_le hr
  · intro row hrow g hg
    obtain ⟨r, hr, rfl⟩ := List.mem_map.1 hrow
    exact hm r hr g (List.mem_of_mem_take hg)
  · intro r hr
    rw [List.eq_of_mem_replicate hr]
    exact Nat.two_pow_pos _

/-- Writing all registers with words that fit keeps the invariant. -/
theorem EncUnit.writeRegs_inv {p : Params} {u : EncUnit} (h : EncUnit.Inv p u) {f : Nat → Nat}
    (hf : ∀ j, j < p.k → f j < 2 ^ p.wR) : EncUnit.Inv p (u.writeRegs p.k f) := by
  refine ⟨h.constraintCount, h.generatorCount, h.rowLength, h.masksFit, by simp, ?_, h.outputsAboveInputs,
    h.outputsFit, h.maximumAttained, h.maximumBounds, h.maximumFits⟩
  intro r hr
  obtain ⟨j, hj, rfl⟩ := List.mem_map.1 hr
  exact hf j (by simpa using hj)

theorem EncUnit.shiftIn_inv {p : Params} (hp : p.wf) {u : EncUnit} (h : EncUnit.Inv p u) (sym : Nat)
    (flag : Bool) : EncUnit.Inv p (u.shiftIn p sym flag) :=
  EncUnit.writeRegs_inv h (fun _ _ => insertBit_lt hp.2.1 _ _ _)

theorem EncUnit.reset_inv (p : Params) : EncUnit.Inv p (EncUnit.reset p) := by
  refine ⟨by simp [EncUnit.reset], by simp [EncUnit.reset], ?_, ?_, by simp [EncUnit.reset], ?_, ?_, ?_, ?_, ?_,
    by simp [EncUnit.reset]⟩
  · intro row hrow; rw [List.eq_of_mem_replicate hrow]; rfl
  · intro row hrow g hg; rw [List.eq_of_mem_replicate hrow] at hg; simp at hg
  · intro r hr; rw [List.eq_of_mem_replicate hr]; exact Nat.two_pow_pos _
  · simp [EncUnit.reset]
  · simp [EncUnit.reset]
  · simp [EncUnit.reset]
  · intro c hc; rw [List.eq_of_mem_replicate hc]; exact Nat.zero_le _

/-! ### The invariant of `RM` -/

theorem RmUnit.reset_inv (p : Params) : RmUnit.Inv p RmUnit.reset :=
  ⟨⟨List.Pairwise.nil, by simp [RmUnit.reset]⟩, by simp [RmUnit.reset], by simp [RmUnit.reset],
    by simp [RmUnit.reset]⟩

theorem RmUnit.construct_inv {p : Params} {log2 len : Nat} (h : exceedsCapacity p.rmCap log2 len = false) :
    RmUnit.Inv p (RmUnit.construct log2 len) := by
  refine ⟨⟨List.Pairwise.nil, by simp [RmUnit.construct]⟩, by simp [RmUnit.construct],
    by simp [RmUnit.construct], fun cap hcap => ?_⟩
  rw [hcap] at h
  simpa [exceedsCapacity, RmUnit.construct, RmUnit.nbSymbols] using h

end Sys2Proof.Machine
end

