-- ==== Sys2Proof/Laws/Memory.lean ====
section
/-!
SUPPORT. The store: a read after a write, the canonical form is kept by every operation, equal reads mean equal
stores, and what the whole-store pass and the column write leave at each address.
-/

namespace Sys2Proof.Machine

@[simp] theorem Memory.read_nil (a : Nat) : Memory.read [] a = vzero := rfl

theorem Memory.read_cons (b : Nat) (v : Val) (rest : Memory) (a : Nat) :
    Memory.read ((b, v) :: rest) a = if a = b then v else Memory.read rest a := rfl

theorem Memory.wf_nil : Memory.wf [] := ⟨List.Pairwise.nil, by simp⟩

theorem Memory.wf_tail {x : Nat × Val} {rest : Memory} (h : Memory.wf (x :: rest)) : Memory.wf rest :=
  ⟨(List.pairwise_cons.1 h.1).2, fun y hy => h.2 y (List.mem_cons_of_mem _ hy)⟩

theorem Memory.wf_head_lt {x : Nat × Val} {rest : Memory} (h : Memory.wf (x :: rest)) :
    ∀ y ∈ rest, x.1 < y.1 := (List.pairwise_cons.1 h.1).1

/-- An address that is not listed reads as `vzero`. -/
theorem Memory.read_of_not_listed {mem : Memory} {a : Nat} (h : ∀ x ∈ mem, x.1 ≠ a) :
    Memory.read mem a = vzero := by
  induction mem with
  | nil => rfl
  | cons x rest ih =>
    obtain ⟨b, v⟩ := x
    have hb : a ≠ b := fun e => h (b, v) (by simp) e.symm
    rw [Memory.read_cons, if_neg hb]
    exact ih (fun y hy => h y (List.mem_cons_of_mem _ hy))

theorem Memory.read_of_lt_all {mem : Memory} {a : Nat} (h : ∀ x ∈ mem, a < x.1) :
    Memory.read mem a = vzero :=
  Memory.read_of_not_listed (fun x hx => by have := h x hx; omega)

/-- In the canonical form a listed entry is what its address reads as. -/
theorem Memory.read_of_mem {mem : Memory} (hwf : Memory.wf mem) {a : Nat} {v : Val} (h : (a, v) ∈ mem) :
    Memory.read mem a = v := by
  induction mem with
  | nil => simp at h
  | cons x rest ih =>
    obtain ⟨b, w⟩ := x
    rw [Memory.read_cons]
    rcases List.mem_cons.1 h with h | h
    · cases h; simp
    · have := Memory.wf_head_lt hwf _ h
      rw [if_neg (by simp at this; omega)]
      exact ih (Memory.wf_tail hwf) h

/-- An address that does not read as `vzero` is listed. -/
theorem Memory.mem_of_read {mem : Memory} {a : Nat} (h : Memory.read mem a ≠ vzero) :
    (a, Memory.read mem a) ∈ mem := by
  induction mem with
  | nil => simp at h
  | cons x rest ih =>
    obtain ⟨b, w⟩ := x
    rw [Memory.read_cons] at h ⊢
    split
    · rename_i e; subst e; simp
    · rename_i e
      rw [if_neg e] at h
      exact List.mem_cons_of_mem _ (ih h)

/-- Entries after a write come from the store or are the one written. -/
theorem Memory.mem_write {mem : Memory} {a : Nat} {v : Val} {x : Nat × Val} (h : x ∈ Memory.write mem a v) :
    x ∈ mem ∨ (x = (a, v) ∧ v ≠ vzero) := by
  induction mem with
  | nil =>
    unfold Memory.write at h
    split at h
    · simp at h
    · exact .inr ⟨by simpa using h, ‹_›⟩
  | cons y rest ih =>
    obtain ⟨b, w⟩ := y
    unfold Memory.write at h
    split at h
    · split at h
      · exact .inl h
      · rcases List.mem_cons.1 h with h | h
        · exact .inr ⟨h, ‹_›⟩
        · exact .inl h
    · split at h
      · split at h
        · exact .inl (List.mem_cons_of_mem _ h)
        · rcases List.mem_cons.1 h with h | h
          · exact .inr ⟨h, ‹_›⟩
          · exact .inl (List.mem_cons_of_mem _ h)
      · rcases List.mem_cons.1 h with h | h
        · exact .inl (h ▸ List.mem_cons_self)
        · rcases ih h with h | h
          · exact .inl (List.mem_cons_of_mem _ h)
          · exact .inr h

theorem Memory.write_wf {mem : Memory} (hwf : Memory.wf mem) (a : Nat) (v : Val) :
    Memory.wf (Memory.write mem a v) := by
  refine ⟨?_, fun x hx => ?_⟩
  · induction mem with
    | nil =>
      unfold Memory.write
      split <;> simp
    | cons y rest ih =>
      obtain ⟨b, w⟩ := y
      have hrest := Memory.wf_tail hwf
      have hlt := Memory.wf_head_lt hwf
      unfold Memory.write
      split
      · split
        · exact hwf.1
        · rename_i hab _
          refine List.pairwise_cons.2 ⟨fun x hx => ?_, hwf.1⟩
          rcases List.mem_cons.1 hx with rfl | hx
          · exact hab
          · exact Nat.lt_trans hab (hlt x hx)
      · split
        · split
          · exact hrest.1
          · rename_i e _
            subst e
            exact List.pairwise_cons.2 ⟨hlt, hrest.1⟩
        · rename_i hab e
          refine List.pairwise_cons.2 ⟨fun x hx => ?_, ih hrest⟩
          rcases Memory.mem_write hx with h | ⟨rfl, _⟩
          · exact hlt x h
          · show b < a
            omega
  · rcases Memory.mem_write hx with h | ⟨rfl, h⟩
    · exact hwf.2 x h
    · exact h

/-- A read after a write: the value written at that address, and everywhere else what was read before. -/
theorem Memory.read_write {mem : Memory} (hwf : Memory.wf mem) (a : Nat) (v : Val) (b : Nat) :
    Memory.read (Memory.write mem a v) b = if b = a then v else Memory.read mem b := by
  induction mem with
  | nil =>
    unfold Memory.write
    split
    · rename_i h; subst h; simp
    · rfl
  | cons y rest ih =>
    obtain ⟨c, w⟩ := y
    have hlt := Memory.wf_head_lt hwf
    unfold Memory.write
    split
    · rename_i hac
      split
      · rename_i hv
        by_cases hb : b = a
        · subst hb
          rw [if_pos rfl, hv]
          refine Memory.read_of_lt_all (fun x hx => ?_)
          rcases List.mem_cons.1 hx with rfl | hx
          · exact hac
          · exact Nat.lt_trans hac (hlt x hx)
        · rw [if_neg hb]
      · rfl
    · split
      · rename_i e
        subst e
        split
        · rename_i hv
          by_cases hb : b = a
          · subst hb
            rw [if_pos rfl, hv]
            exact Memory.read_of_lt_all hlt
          · rw [if_neg hb, Memory.read_cons, if_neg hb]
        · by_cases hb : b = a <;> simp [Memory.read_cons, hb]
      · rename_i hac e
        rw [Memory.read_cons, ih (Memory.wf_tail hwf), Memory.read_cons]
        by_cases hb : b = c
        · subst hb
          rw [if_pos rfl, if_pos rfl, if_neg (fun h => e h.symm)]
        · rw [if_neg hb, if_neg hb]

/-- Two stores in canonical form that read the same everywhere are equal. -/
theorem Memory.ext_of_read {m1 m2 : Memory} (h1 : Memory.wf m1) (h2 : Memory.wf m2)
    (h : ∀ a, Memory.read m1 a = Memory.read m2 a) : m1 = m2 := by
  have hsub : ∀ {m1 m2 : Memory}, Memory.wf m1 → (∀ a, Memory.read m1 a = Memory.read m2 a) → m1 ⊆ m2 := by
    intro m1 m2 h1 h x hx
    have hr := Memory.read_of_mem (a := x.1) (v := x.2) h1 hx
    have hne : Memory.read m2 x.1 ≠ vzero := by rw [← h, hr]; exact h1.2 x hx
    have := Memory.mem_of_read hne
    rwa [← h, hr] at this
  have nodup : ∀ {m : Memory}, Memory.wf m → m.Nodup := fun hm =>
    hm.1.imp (fun hlt e => by subst e; exact Nat.lt_irrefl _ hlt)
  have hperm : m1.Perm m2 := (List.perm_ext_iff_of_nodup (nodup h1) (nodup h2)).2
    (fun x => ⟨fun hx => hsub h1 h hx, fun hx => hsub h2 (fun a => (h a).symm) hx⟩)
  exact hperm.eq_of_pairwise (fun x y _ _ hxy hyx => absurd hxy (Nat.lt_asymm hyx)) h1.1 h2.1

/-! ### `MemWrite` -/

theorem memWrite_wf {mem : Memory} (hwf : Memory.wf mem) (a : Nat) (vals : List Val) :
    Memory.wf (memWrite mem a vals) := by
  induction vals generalizing mem a with
  | nil => exact hwf
  | cons v vs ih => exact ih (Memory.write_wf hwf a v) (a + 1)

/-- What every address reads as after `MemWrite(a, n, vals)`. -/
theorem read_memWrite {mem : Memory} (hwf : Memory.wf mem) (a : Nat) (vals : List Val) (b : Nat) :
    Memory.read (memWrite mem a vals) b =
      if a ≤ b ∧ b < a + vals.length then vals.getD (b - a) vzero else Memory.read mem b := by
  induction vals generalizing mem a with
  | nil => simp only [memWrite, List.length_nil]; rw [if_neg (by omega)]
  | cons v vs ih =>
    unfold memWrite
    rw [ih (Memory.write_wf hwf a v), Memory.read_write hwf, List.length_cons]
    by_cases hb : b = a
    · subst hb
      rw [if_neg (by omega), if_pos rfl, if_pos (by omega)]
      simp
    · rw [if_neg hb]
      by_cases h : a ≤ b ∧ b < a + (vs.length + 1)
      · rw [if_pos (by omega), if_pos h, show b - a = (b - (a + 1)) + 1 by omega, List.getD_cons_succ]
      · rw [if_neg (by omega), if_neg h]

theorem mem_memWrite {mem : Memory} {a : Nat} {vals : List Val} {x : Nat × Val}
    (h : x ∈ memWrite mem a vals) : x ∈ mem ∨ (a ≤ x.1 ∧ x.1 < a + vals.length ∧ x.2 ∈ vals) := by
  induction vals generalizing mem a with
  | nil => exact .inl h
  | cons v vs ih =>
    rcases ih h with h | ⟨h1, h2, h3⟩
    · rcases Memory.mem_write h with h | ⟨rfl, _⟩
      · exact .inl h
      · exact .inr ⟨by simp, by simp, by simp⟩
    · exact .inr ⟨by omega, by simp; omega, List.mem_cons_of_mem _ h3⟩

/-! ### The whole-store pass -/

theorem Memory.mem_tabulate {n : Nat} {f : Nat → Val} {x : Nat × Val} :
    x ∈ Memory.tabulate n f ↔ x.1 < n ∧ x.2 = f x.1 ∧ x.2 ≠ vzero := by
  obtain ⟨a, v⟩ := x
  unfold Memory.tabulate
  rw [List.mem_filterMap]
  constructor
  · rintro ⟨b, hb, h⟩
    split at h
    · simp at h
    · rename_i hne
      simp only [Option.some.injEq, Prod.mk.injEq] at h
      obtain ⟨rfl, rfl⟩ := h
      exact ⟨by simpa using hb, rfl, hne⟩
  · rintro ⟨h1, h2, h3⟩
    refine ⟨a, by simpa using h1, ?_⟩
    simp only at h2 h3
    subst h2
    rw [if_neg h3]

theorem Memory.tabulate_wf (n : Nat) (f : Nat → Val) : Memory.wf (Memory.tabulate n f) := by
  refine ⟨?_, fun x hx => (Memory.mem_tabulate.1 hx).2.2⟩
  unfold Memory.tabulate
  rw [List.pairwise_filterMap]
  refine List.pairwise_lt_range.imp (fun {a b} hab x hx y hy => ?_)
  have fst_eq : ∀ {c : Nat} {z : Nat × Val}, (if f c = vzero then none else some (c, f c)) = some z → z.1 = c := by
    intro c z h
    split at h
    · simp at h
    · simp only [Option.some.injEq] at h; rw [← h]
  rw [fst_eq hx, fst_eq hy]
  exact hab

/-- What every address reads as after a whole-store pass. -/
theorem Memory.read_tabulate (n : Nat) (f : Nat → Val) (a : Nat) :
    Memory.read (Memory.tabulate n f) a = if a < n then f a else vzero := by
  by_cases h : a < n ∧ f a ≠ vzero
  · rw [if_pos h.1]
    exact Memory.read_of_mem (Memory.tabulate_wf n f) (Memory.mem_tabulate.2 ⟨h.1, rfl, h.2⟩)
  · rw [Memory.read_of_not_listed]
    · split
      · rename_i hlt
        by_contra hne
        exact h ⟨hlt, fun e => hne e.symm⟩
      · rfl
    · rintro x hx rfl
      obtain ⟨h1, h2, h3⟩ := Memory.mem_tabulate.1 hx
      exact h ⟨h1, h2 ▸ h3⟩

theorem Memory.tabulate_congr {n : Nat} {f g : Nat → Val} (h : ∀ a, a < n → f a = g a) :
    Memory.tabulate n f = Memory.tabulate n g :=
  Memory.ext_of_read (Memory.tabulate_wf n f) (Memory.tabulate_wf n g) (fun a => by
    rw [Memory.read_tabulate, Memory.read_tabulate]
    split
    · exact h a ‹_›
    · rfl)

/-! ### Admitted stores -/

theorem Memory.allAdmitted_iff {mem : Memory} (hwf : Memory.wf mem) :
    Memory.allAdmitted mem = true ↔ ∀ a, Val.admitted (Memory.read mem a) = true := by
  unfold Memory.allAdmitted
  rw [List.all_eq_true]
  constructor
  · intro h a
    by_cases hz : Memory.read mem a = vzero
    · rw [hz]; rfl
    · exact h _ (Memory.mem_of_read hz)
  · intro h x hx
    rw [← Memory.read_of_mem (a := x.1) (v := x.2) hwf hx]
    exact h x.1

theorem Memory.admitted_read {mem : Memory} (h : Memory.allAdmitted mem = true) (a : Nat) :
    Val.admitted (Memory.read mem a) = true := by
  by_cases hz : Memory.read mem a = vzero
  · rw [hz]; rfl
  · exact List.all_eq_true.1 h _ (Memory.mem_of_read hz)

end Sys2Proof.Machine
end

