-- ==== Sys2Proof/Laws/Numeric.lean ====
section
/-!
SUPPORT. The laws of the interface of `Val` (00_scope.md R12) on admitted values, for every numeric format.
-/

namespace Sys2Proof.Machine

@[simp] theorem Val.admitted_fin (q : Rat) : Val.admitted (.fin q) = decide (0 ≤ q) := rfl

theorem Val.admitted_iff (v : Val) : Val.admitted v = true ↔ ∃ q : Rat, 0 ≤ q ∧ v = .fin q := by
  cases v <;> simp [Val.admitted]

@[simp] theorem vlt_fin (x y : Rat) : vlt (.fin x) (.fin y) = decide (x < y) := by simp [vlt, Val.place]
@[simp] theorem vle_fin (x y : Rat) : vle (.fin x) (.fin y) = decide (x ≤ y) := by simp [vle, Val.place]
@[simp] theorem veq_fin (x y : Rat) : veq (.fin x) (.fin y) = decide (x = y) := by simp [veq, Val.place]

@[simp] theorem vadd_fin (f : Numeric) (x y : Rat) : vadd f (.fin x) (.fin y) = .fin (Numeric.sum f x y) := rfl
@[simp] theorem vdiv_fin (f : Numeric) (x y : Rat) : vdiv f (.fin x) (.fin y) = .fin (Numeric.quotient f x y) :=
  rfl

theorem vlt_trans {a b c : Val} (h1 : vlt a b = true) (h2 : vlt b c = true) : vlt a c = true := by
  unfold vlt at *
  cases ha : Val.place a <;> cases hb : Val.place b <;> cases hc : Val.place c <;> simp_all
  rcases h1 with h1 | ⟨h1, h1'⟩ <;> rcases h2 with h2 | ⟨h2, h2'⟩
  · exact .inl (lt_trans h1 h2)
  · exact .inl (h2 ▸ h1)
  · exact .inl (h1 ▸ h2)
  · exact .inr ⟨h1.trans h2, lt_trans h1' h2'⟩

theorem Numeric.sum_zero (f : Numeric) (x : Rat) : Numeric.sum f x 0 = x := by
  cases f <;> simp [Numeric.sum]

theorem Numeric.sum_nonneg (f : Numeric) {x y : Rat} (hx : 0 ≤ x) (hy : 0 ≤ y) : 0 ≤ Numeric.sum f x y := by
  cases f with
  | exact => exact add_nonneg hx hy
  | rounding k =>
    simp only [Numeric.sum]
    split
    · exact hx
    · split
      · exact le_of_lt ‹_›
      · exact add_nonneg hx hy

theorem Numeric.sum_eq_zero_iff (f : Numeric) {x y : Rat} (hx : 0 ≤ x) (hy : 0 ≤ y) :
    Numeric.sum f x y = 0 ↔ x = 0 ∧ y = 0 := by
  cases f with
  | exact => exact add_eq_zero_iff_of_nonneg hx hy
  | rounding k =>
    simp only [Numeric.sum]
    split
    · simp [*]
    · rename_i hne
      split
      · rename_i hpos
        exact ⟨fun h => absurd h (ne_of_gt hpos), fun h => absurd h.2 hne⟩
      · exact add_eq_zero_iff_of_nonneg hx hy

theorem Numeric.quotient_nonneg (f : Numeric) {x y : Rat} (hx : 0 ≤ x) (hy : 0 ≤ y) :
    0 ≤ Numeric.quotient f x y := by
  cases f with
  | exact => exact div_nonneg hx hy
  | rounding k =>
    simp only [Numeric.quotient]
    split
    · exact le_refl 0
    · split
      · assumption
      · exact div_nonneg hx hy

theorem Numeric.quotient_zero (f : Numeric) (y : Rat) : Numeric.quotient f 0 y = 0 := by
  cases f <;> simp [Numeric.quotient]

theorem vadd_admitted (f : Numeric) {a b : Val} (ha : Val.admitted a = true) (hb : Val.admitted b = true) :
    Val.admitted (vadd f a b) = true := by
  obtain ⟨x, hx, rfl⟩ := (Val.admitted_iff a).1 ha
  obtain ⟨y, hy, rfl⟩ := (Val.admitted_iff b).1 hb
  simpa using Numeric.sum_nonneg f hx hy

theorem vdiv_admitted (f : Numeric) {a b : Val} (ha : Val.admitted a = true) (hb : Val.admitted b = true) :
    Val.admitted (vdiv f a b) = true := by
  obtain ⟨x, hx, rfl⟩ := (Val.admitted_iff a).1 ha
  obtain ⟨y, hy, rfl⟩ := (Val.admitted_iff b).1 hb
  simpa using Numeric.quotient_nonneg f hx hy

end Sys2Proof.Machine
end

