-- ==== Sys2Proof/Laws/Matrix.lean ====
section
/-!
SUPPORT. The unit `RM`: what each of its shared operations leaves at every entry, the column sum, the source
permutation of the deinterleaver, and the searches.
-/

namespace Sys2Proof.Machine

/-! ### Element addresses (20_memory.md R51) -/

theorem RmUnit.address_lt_size {u : RmUnit} {p c : Nat} (hp : p < u.messageLength) (hc : c < u.nbSymbols) :
    u.address p c < u.size := by
  unfold RmUnit.address RmUnit.size
  calc p * u.nbSymbols + c < p * u.nbSymbols + u.nbSymbols := by omega
    _ = (p + 1) * u.nbSymbols := by rw [Nat.succ_mul]
    _ ≤ u.messageLength * u.nbSymbols := Nat.mul_le_mul_right _ hp

theorem RmUnit.address_div {u : RmUnit} (p : Nat) {c : Nat} (hc : c < u.nbSymbols) :
    u.address p c / u.nbSymbols = p := by
  unfold RmUnit.address
  rw [Nat.add_comm, Nat.add_mul_div_right _ _ u.nbSymbols_pos, Nat.div_eq_of_lt hc, Nat.zero_add]

theorem RmUnit.address_mod {u : RmUnit} (p : Nat) {c : Nat} (hc : c < u.nbSymbols) :
    u.address p c % u.nbSymbols = c := by
  unfold RmUnit.address
  rw [Nat.add_comm, Nat.add_mul_mod_self_right, Nat.mod_eq_of_lt hc]

/-- An address inside one column belongs to no other position. -/
theorem RmUnit.address_in_column_iff {u : RmUnit} (p q : Nat) {c : Nat} (hc : c < u.nbSymbols) :
    (u.address p 0 ≤ u.address q c ∧ u.address q c < u.address p 0 + u.nbSymbols) ↔ q = p := by
  constructor
  · rintro ⟨h1, h2⟩
    have e : u.address q c / u.nbSymbols = p := by
      refine (Nat.div_eq_iff u.nbSymbols_pos).2 ?_
      unfold RmUnit.address at *
      have := u.nbSymbols_pos
      omega
    rw [← e, u.address_div q hc]
  · rintro rfl
    unfold RmUnit.address
    omega

/-! ### Writes -/

theorem RmUnit.writeColumn_of_lt {u : RmUnit} {p : Nat} (h : p < u.messageLength) (vals : List Val) :
    u.writeColumn p vals = { u with matrix := memWrite u.matrix (u.address p 0) vals } := if_pos h

theorem RmUnit.writeColumn_of_ge {u : RmUnit} {p : Nat} (h : u.messageLength ≤ p) (vals : List Val) :
    u.writeColumn p vals = u := if_neg (Nat.not_lt.2 h)

theorem RmUnit.appendColumn_of_lt {u : RmUnit} (h : u.messageSymbolCount < u.messageLength) (vals : List Val) :
    u.appendColumn vals =
      { u.writeColumn u.messageSymbolCount vals with messageSymbolCount := u.messageSymbolCount + 1 } := if_pos h

theorem RmUnit.appendColumn_of_ge {u : RmUnit} (h : u.messageLength ≤ u.messageSymbolCount) (vals : List Val) :
    u.appendColumn vals = u := if_neg (Nat.not_lt.2 h)

/-- Every address after a column write: the column's own elements hold the values, all others what they held. -/
theorem RmUnit.read_writeColumn {u : RmUnit} (hwf : Memory.wf u.matrix) {p : Nat} {vals : List Val}
    (hp : p < u.messageLength) (hlen : vals.length = u.nbSymbols) (a : Nat) :
    Memory.read (u.writeColumn p vals).matrix a =
      if u.address p 0 ≤ a ∧ a < u.address p 0 + u.nbSymbols then vals.getD (a - u.address p 0) vzero
      else Memory.read u.matrix a := by
  rw [RmUnit.writeColumn_of_lt hp, ← hlen]
  exact read_memWrite hwf _ _ _

/-- Every entry after a column write. -/
theorem RmUnit.entry_writeColumn {u : RmUnit} (hwf : Memory.wf u.matrix) {p : Nat} {vals : List Val}
    (hp : p < u.messageLength) (hlen : vals.length = u.nbSymbols) (q : Nat) {c : Nat} (hc : c < u.nbSymbols) :
    (u.writeColumn p vals).entry q c = if q = p then vals.getD c vzero else u.entry q c := by
  unfold RmUnit.entry
  rw [RmUnit.read_writeColumn hwf hp hlen]
  have hadr : (u.writeColumn p vals).address q c = u.address q c := by simp [RmUnit.address]
  rw [hadr]
  simp only [RmUnit.address_in_column_iff p q hc]
  split
  · rename_i e
    subst e
    congr 1
    unfold RmUnit.address
    omega
  · rfl

theorem RmUnit.writeColumn_wf {u : RmUnit} (hwf : Memory.wf u.matrix) (p : Nat) (vals : List Val) :
    Memory.wf (u.writeColumn p vals).matrix := by
  unfold RmUnit.writeColumn
  split
  · exact memWrite_wf hwf _ _
  · exact hwf

theorem RmUnit.appendColumn_wf {u : RmUnit} (hwf : Memory.wf u.matrix) (vals : List Val) :
    Memory.wf (u.appendColumn vals).matrix := by
  unfold RmUnit.appendColumn
  split
  · exact RmUnit.writeColumn_wf hwf _ _
  · exact hwf

/-- An entry listed after a column write was listed before, or lies in the column. -/
theorem RmUnit.mem_writeColumn {u : RmUnit} {p : Nat} {vals : List Val} (hlen : vals.length = u.nbSymbols)
    {x : Nat × Val} (h : x ∈ (u.writeColumn p vals).matrix) :
    x ∈ u.matrix ∨ (x.1 < u.size ∧ x.2 ∈ vals) := by
  unfold RmUnit.writeColumn at h
  split at h
  · rename_i hp
    rcases mem_memWrite h with h | ⟨_, h2, h3⟩
    · exact .inl h
    · refine .inr ⟨?_, h3⟩
      have := RmUnit.address_lt_size hp (Nat.sub_lt u.nbSymbols_pos Nat.zero_lt_one)
      have hpos := u.nbSymbols_pos
      unfold RmUnit.address at *
      omega
  · exact .inl h

theorem RmUnit.mem_appendColumn {u : RmUnit} {vals : List Val} (hlen : vals.length = u.nbSymbols)
    {x : Nat × Val} (h : x ∈ (u.appendColumn vals).matrix) :
    x ∈ u.matrix ∨ (x.1 < u.size ∧ x.2 ∈ vals) := by
  unfold RmUnit.appendColumn at h
  split at h
  · exact RmUnit.mem_writeColumn hlen h
  · exact .inl h

/-- The cursor after a sequential insertion (41_matrix_write_ops.md R122, R124). -/
theorem RmUnit.appendColumn_cursor (u : RmUnit) (vals : List Val) :
    (u.appendColumn vals).messageSymbolCount =
      if u.messageSymbolCount < u.messageLength then u.messageSymbolCount + 1 else u.messageSymbolCount := by
  unfold RmUnit.appendColumn
  split <;> rfl

/-! ### Whole-store passes -/

/-- Every address after a whole-store pass. -/
theorem RmUnit.read_rewrite (u : RmUnit) (g : Nat → Nat → Val) (a : Nat) :
    Memory.read (u.rewrite g).matrix a =
      if a < u.size then g (a / u.nbSymbols) (a % u.nbSymbols) else vzero :=
  Memory.read_tabulate _ _ _

/-- Every entry after a whole-store pass. -/
theorem RmUnit.entry_rewrite {u : RmUnit} (g : Nat → Nat → Val) {p c : Nat} (hp : p < u.messageLength)
    (hc : c < u.nbSymbols) : (u.rewrite g).entry p c = g p c := by
  show Memory.read (u.rewrite g).matrix (u.address p c) = _
  rw [RmUnit.read_rewrite, if_pos (RmUnit.address_lt_size hp hc), u.address_div p hc, u.address_mod p hc]

/-- Every column after a whole-store pass. -/
theorem RmUnit.memRead_rewrite {u : RmUnit} (g : Nat → Nat → Val) {p : Nat} (hp : p < u.messageLength) :
    memRead (u.rewrite g).matrix (p * u.nbSymbols) u.nbSymbols = (List.range u.nbSymbols).map (g p) :=
  List.map_congr_left (fun _ hc => RmUnit.entry_rewrite g hp (List.mem_range.1 hc))

theorem RmUnit.div_lt_of_lt_size {u : RmUnit} {a : Nat} (h : a < u.size) : a / u.nbSymbols < u.messageLength :=
  Nat.div_lt_of_lt_mul (by rw [Nat.mul_comm]; exact h)

theorem RmUnit.rewrite_congr {u : RmUnit} {g h : Nat → Nat → Val}
    (e : ∀ p, p < u.messageLength → ∀ c, c < u.nbSymbols → g p c = h p c) : u.rewrite g = u.rewrite h := by
  unfold RmUnit.rewrite
  rw [Memory.tabulate_congr (fun a ha => e _ (RmUnit.div_lt_of_lt_size ha) _ (Nat.mod_lt _ u.nbSymbols_pos))]

/-- A pass over a rewritten store is one pass. -/
theorem RmUnit.rewrite_rewrite {u : RmUnit} {g h : Nat → Nat → Val} :
    (u.rewrite g).rewrite h = u.rewrite h := rfl

theorem RmUnit.rewrite_wf (u : RmUnit) (g : Nat → Nat → Val) : Memory.wf (u.rewrite g).matrix :=
  Memory.tabulate_wf _ _

theorem RmUnit.mem_rewrite {u : RmUnit} {g : Nat → Nat → Val} {x : Nat × Val} (h : x ∈ (u.rewrite g).matrix) :
    x.1 < u.size ∧ x.2 = g (x.1 / u.nbSymbols) (x.1 % u.nbSymbols) :=
  ⟨(Memory.mem_tabulate.1 h).1, (Memory.mem_tabulate.1 h).2.1⟩

/-- A pass that puts back what every entry holds changes nothing, on a canonical store inside its extent. -/
theorem RmUnit.rewrite_entry {u : RmUnit} (hwf : Memory.wf u.matrix) (hin : ∀ x ∈ u.matrix, x.1 < u.size) :
    u.rewrite u.entry = u := by
  have hm : (u.rewrite u.entry).matrix = u.matrix := by
    refine Memory.ext_of_read (RmUnit.rewrite_wf _ _) hwf (fun a => ?_)
    rw [RmUnit.read_rewrite]
    split
    · unfold RmUnit.entry RmUnit.address
      rw [Nat.div_add_mod']
    · rw [Memory.read_of_not_listed]
      intro x hx e
      have := hin x hx
      omega
  calc u.rewrite u.entry = { u with matrix := (u.rewrite u.entry).matrix } := rfl
    _ = u := by rw [hm]

/-- Every entry of an admitted store is admitted. -/
theorem RmUnit.admitted_entry {u : RmUnit} (h : Memory.allAdmitted u.matrix = true) (p c : Nat) :
    Val.admitted (u.entry p c) = true := Memory.admitted_read h _

theorem RmUnit.rewrite_admitted {u : RmUnit} {g : Nat → Nat → Val}
    (h : ∀ p c, Val.admitted (g p c) = true) : Memory.allAdmitted (u.rewrite g).matrix = true := by
  unfold Memory.allAdmitted
  rw [List.all_eq_true]
  intro x hx
  rw [(RmUnit.mem_rewrite hx).2]
  exact h _ _

/-! ### Column sums -/

/-- A sum of admitted values from an admitted start is admitted, and `vzero` exactly when all of them are. -/
theorem foldl_vadd {ι : Type} (f : Numeric) (g : ι → Val) (l : List ι) (hg : ∀ i ∈ l, Val.admitted (g i) = true)
    (v : Val) (hv : Val.admitted v = true) :
    Val.admitted (l.foldl (fun s i => vadd f s (g i)) v) = true ∧
      (l.foldl (fun s i => vadd f s (g i)) v = vzero ↔ v = vzero ∧ ∀ i ∈ l, g i = vzero) := by
  induction l generalizing v with
  | nil => exact ⟨hv, by simp⟩
  | cons i l ih =>
    have hi := hg i List.mem_cons_self
    have hadd := vadd_admitted f hv hi
    obtain ⟨h1, h2⟩ := ih (fun j hj => hg j (List.mem_cons_of_mem _ hj)) _ hadd
    refine ⟨h1, ?_⟩
    rw [List.foldl_cons, h2]
    have hz : vadd f v (g i) = vzero ↔ v = vzero ∧ g i = vzero := by
      obtain ⟨x, hx, rfl⟩ := (Val.admitted_iff v).1 hv
      obtain ⟨y, hy, hgi⟩ := (Val.admitted_iff (g i)).1 hi
      rw [hgi]
      simpa using Numeric.sum_eq_zero_iff f hx hy
    rw [hz]
    simp [and_assoc]

theorem RmUnit.columnSum_admitted {u : RmUnit} (h : Memory.allAdmitted u.matrix = true) (f : Numeric) (p : Nat) :
    Val.admitted (u.columnSum f p) = true :=
  (foldl_vadd f (u.entry p) _ (fun c _ => RmUnit.admitted_entry h p c) vzero rfl).1

/-- The sum of a column of admitted values is `vzero` exactly when every entry is (42_matrix_transform_ops.md
R141). -/
theorem RmUnit.columnSum_eq_zero_iff {u : RmUnit} (h : Memory.allAdmitted u.matrix = true) (f : Numeric)
    (p : Nat) : u.columnSum f p = vzero ↔ ∀ c, c < u.nbSymbols → u.entry p c = vzero := by
  unfold RmUnit.columnSum
  rw [(foldl_vadd f (u.entry p) _ (fun c _ => RmUnit.admitted_entry h p c) vzero rfl).2]
  simp

/-- The column sum depends on the entries of its column alone. -/
theorem RmUnit.columnSum_congr {u v : RmUnit} (f : Numeric) {p q : Nat} (hn : u.nbSymbols = v.nbSymbols)
    (h : ∀ c, c < u.nbSymbols → u.entry p c = v.entry q c) : u.columnSum f p = v.columnSum f q := by
  unfold RmUnit.columnSum
  rw [← hn]
  have : ∀ (l : List Nat) (s : Val), (∀ c ∈ l, c < u.nbSymbols) →
      l.foldl (fun s c => vadd f s (u.entry p c)) s = l.foldl (fun s c => vadd f s (v.entry q c)) s := by
    intro l
    induction l with
    | nil => intros; rfl
    | cons c l ih =>
      intro s hl
      rw [List.foldl_cons, List.foldl_cons, h c (hl c List.mem_cons_self)]
      exact ih _ (fun d hd => hl d (List.mem_cons_of_mem _ hd))
  exact this _ _ (fun c hc => by simpa using hc)

/-- For exact values the column sum is the sum of the entries. -/
theorem RmUnit.columnSum_exact {u : RmUnit} {p : Nat} {g : Nat → Rat}
    (h : ∀ c, c < u.nbSymbols → u.entry p c = .fin (g c)) :
    u.columnSum .exact p = .fin (∑ c ∈ Finset.range u.nbSymbols, g c) := by
  unfold RmUnit.columnSum
  have : ∀ n, n ≤ u.nbSymbols →
      (List.range n).foldl (fun s c => vadd .exact s (u.entry p c)) vzero = .fin (∑ c ∈ Finset.range n, g c) := by
    intro n
    induction n with
    | zero => intro _; simp
    | succ n ih =>
      intro hn
      rw [List.range_succ, List.foldl_append, ih (by omega), Finset.sum_range_succ]
      simp [h n (by omega), Numeric.sum]
  exact this _ (Nat.le_refl _)

/-! ### The deinterleaver (42_matrix_transform_ops.md R143 to R145) -/

/-- The bit reversals of all `w`-bit numbers are all `w`-bit numbers. -/
theorem bitrev_range_perm (w : Nat) :
    ((List.range (2 ^ w)).map (fun i => bitrev i w)).Perm (List.range (2 ^ w)) := by
  have hnodup : ((List.range (2 ^ w)).map (fun i => bitrev i w)).Nodup :=
    List.Nodup.map_on
      (fun i hi j hj h => bitrev_injOn (by simpa using hi) (by simpa using hj) h) List.nodup_range
  have hsub : (List.range (2 ^ w)).map (fun i => bitrev i w) ⊆ List.range (2 ^ w) := by
    intro r hr
    obtain ⟨i, _, rfl⟩ := List.mem_map.1 hr
    simpa using bitrev_lt i w
  exact (List.subperm_of_subset hnodup hsub).perm_of_length_le (by simp)

theorem range_filter_lt {m n : Nat} (h : m ≤ n) :
    (List.range n).filter (fun r => decide (r < m)) = List.range m := by
  induction n with
  | zero => simp [Nat.le_zero.1 h]
  | succ n ih =>
    rw [List.range_succ, List.filter_append]
    rcases Nat.lt_or_ge n m with hlt | hge
    · have : m = n + 1 := by omega
      subst this
      rw [List.range_succ]
      congr 1
      · rw [List.filter_eq_self]
        intro a ha
        have := List.mem_range.1 ha
        simp; omega
      · simp
    · rw [ih hge]
      simp [Nat.not_lt.2 hge]

/-- The valid reversals, before they are cut to `L`, are the `L` positions in another order. -/
theorem validReversals_perm (len : Nat) :
    (((List.range (2 ^ (clog2 len + 1))).map (fun i => bitrev i (clog2 len + 1))).filter
      (fun r => decide (r < len))).Perm (List.range len) := by
  have hle : len ≤ 2 ^ (clog2 len + 1) :=
    Nat.le_trans (le_two_pow_clog2 len) (Nat.pow_le_pow_right (by decide) (Nat.le_succ _))
  have := (bitrev_range_perm (clog2 len + 1)).filter (fun r => decide (r < len))
  rwa [range_filter_lt hle] at this

/-- There are exactly `L` valid reversals, so the loop of R143 ends with `d = L` and nothing is cut off. -/
theorem deinterleaveSources_eq {len : Nat} (h : 0 < len) :
    deinterleaveSources len =
      ((List.range (2 ^ (clog2 len + 1))).map (fun i => bitrev i (clog2 len + 1))).filter
        (fun r => decide (r < len)) := by
  unfold deinterleaveSources
  rw [if_neg (by omega), List.take_of_length_le]
  have := (validReversals_perm len).length_eq
  rw [List.length_range] at this
  omega

/-- The sources are the positions `0 .. L-1`, each once (R144). -/
theorem deinterleaveSources_perm (len : Nat) : (deinterleaveSources len).Perm (List.range len) := by
  rcases Nat.eq_zero_or_pos len with h | h
  · subst h
    exact List.Perm.refl _
  · rw [deinterleaveSources_eq h]
    exact validReversals_perm len

@[simp] theorem deinterleaveSources_length (len : Nat) : (deinterleaveSources len).length = len := by
  simpa using (deinterleaveSources_perm len).length_eq

/-- The sources are listed in ascending order of their bit reversals: the closed form of R144. -/
theorem deinterleaveSources_sorted (len : Nat) :
    (deinterleaveSources len).Pairwise
      (fun r q => bitrev r (clog2 len + 1) < bitrev q (clog2 len + 1)) := by
  rcases Nat.eq_zero_or_pos len with h | h
  · subst h
    exact List.Pairwise.nil
  · rw [deinterleaveSources_eq h]
    refine List.Pairwise.filter _ (List.pairwise_map.2 ?_)
    refine List.Pairwise.imp_of_mem (fun {i j} hi hj hij => ?_) List.pairwise_lt_range
    rw [bitrev_bitrev (by simpa using hi), bitrev_bitrev (by simpa using hj)]
    exact hij

theorem deinterleaveSource_eq_getElem {len d : Nat} (h : d < len) :
    deinterleaveSource len d = (deinterleaveSources len)[d]'(by simpa using h) := by
  unfold deinterleaveSource
  rw [List.getD_eq_getElem]

theorem deinterleaveSource_lt {len d : Nat} (h : d < len) : deinterleaveSource len d < len := by
  rw [deinterleaveSource_eq_getElem h]
  have := (deinterleaveSources_perm len).mem_iff.1 (List.getElem_mem (by simpa using h))
  simpa using this

/-- Of each two consecutive raw indices the odd one has no valid reversal. -/
theorem filter_map_range_two_mul {f : Nat → Nat} {valid : Nat → Bool} (n : Nat)
    (heven : ∀ d, d < n → valid (f (2 * d)) = true) (hodd : ∀ d, d < n → valid (f (2 * d + 1)) = false) :
    ((List.range (2 * n)).map f).filter valid = (List.range n).map (fun d => f (2 * d)) := by
  induction n with
  | zero => simp
  | succ n ih =>
    have e : List.range (2 * (n + 1)) = List.range (2 * n) ++ [2 * n, 2 * n + 1] := by
      rw [show 2 * (n + 1) = (2 * n + 1) + 1 by omega, List.range_succ, List.range_succ, List.append_assoc]
      rfl
    rw [e, List.map_append, List.filter_append,
      ih (fun d hd => heven d (by omega)) (fun d hd => hodd d (by omega)), List.range_succ, List.map_append]
    simp [heven n (by omega), hodd n (by omega)]

theorem clog2_two_pow (q : Nat) : clog2 (2 ^ q) = q := by
  apply Nat.le_antisymm
  · exact (clog2_le_iff _ _).2 (Nat.le_refl _)
  · exact (Nat.pow_le_pow_iff_right (by decide : 1 < 2)).1 (le_two_pow_clog2 (2 ^ q))

/-- An odd raw index reverses to a number with its top bit set. -/
theorem two_pow_le_bitrev_odd (d q : Nat) : 2 ^ q ≤ bitrev (2 * d + 1) (q + 1) := by
  apply Nat.ge_two_pow_of_testBit
  rw [testBit_bitrev]
  simp

/-- For a power of two the sources are the `q`-bit reversals of the destinations (R144). -/
theorem deinterleaveSources_two_pow (q : Nat) :
    deinterleaveSources (2 ^ q) = (List.range (2 ^ q)).map (fun d => bitrev d q) := by
  rw [deinterleaveSources_eq (Nat.two_pow_pos q), clog2_two_pow, Nat.pow_succ, Nat.mul_comm,
    filter_map_range_two_mul]
  · simp only [bitrev_double]
  · intro d _
    rw [bitrev_double]
    simpa using bitrev_lt d q
  · intro d _
    simpa using two_pow_le_bitrev_odd d q

/-! ### The searches (43_matrix_read_ops.md) -/

/-- The running-maximum loop of both searches, said once: with nothing to find it answers its start; otherwise it
answers the last of the greatest values that qualify (R150). -/
theorem lastMaximum_spec {ι τ : Type} (v : ι → Val) (ok : ι → Bool) (tag : ι → τ) (start : τ) (l : List ι)
    (hadm : ∀ x ∈ l, Val.admitted (v x) = true) :
    ((∀ x ∈ l, ok x = false) ∧
        l.foldl (fun acc x => if ok x && vle acc.1 (v x) then (v x, tag x) else acc) (vzero, start) =
          (vzero, start)) ∨
      ∃ l1 x l2, l = l1 ++ x :: l2 ∧ ok x = true ∧
        l.foldl (fun acc x => if ok x && vle acc.1 (v x) then (v x, tag x) else acc) (vzero, start) =
          (v x, tag x) ∧
        (∀ y ∈ l1, ok y = true → vle (v y) (v x) = true) ∧
        (∀ y ∈ l2, ok y = true → vlt (v y) (v x) = true) := by
  induction l using List.reverseRecOn with
  | nil => exact .inl ⟨by simp, rfl⟩
  | append_singleton l z ih =>
    have hz := hadm z (by simp)
    have hl : ∀ x ∈ l, Val.admitted (v x) = true := fun x hx => hadm x (by simp [hx])
    obtain ⟨q, hq, hvz⟩ := (Val.admitted_iff _).1 hz
    rw [List.foldl_append, List.foldl_cons, List.foldl_nil]
    rcases ih hl with ⟨hnone, hr⟩ | ⟨l1, x, l2, rfl, hx, hr, h1, h2⟩
    · rw [hr]
      cases hok : ok z with
      | false =>
        refine .inl ⟨fun x hx => ?_, by simp⟩
        rcases List.mem_append.1 hx with hx | hx
        · exact hnone x hx
        · simp at hx; rw [hx, hok]
      | true =>
        refine .inr ⟨l, z, [], rfl, hok, ?_, fun y hy hy' => ?_, by simp⟩
        · simp [hvz, hq]
        · rw [hnone y hy] at hy'; simp at hy'
    · rw [hr]
      have hxa := hl x (by simp)
      obtain ⟨r, hr0, hvx⟩ := (Val.admitted_iff _).1 hxa
      have below : ∀ y ∈ l1 ++ x :: l2, ok y = true → vle (v y) (v x) = true := by
        intro y hy hoky
        obtain ⟨s, _, hvy⟩ := (Val.admitted_iff _).1 (hl y hy)
        rcases List.mem_append.1 hy with hy | hy
        · exact h1 y hy hoky
        · rcases List.mem_cons.1 hy with rfl | hy
          · simp [hvy]
          · have := h2 y hy hoky
            rw [hvy, hvx] at this ⊢
            simp at this ⊢
            exact le_of_lt this
      by_cases hc : (ok z && vle (v x) (v z)) = true
      · rw [if_pos hc]
        rw [Bool.and_eq_true] at hc
        refine .inr ⟨l1 ++ x :: l2, z, [], rfl, hc.1, rfl, fun y hy hoky => ?_, by simp⟩
        obtain ⟨s, _, hvy⟩ := (Val.admitted_iff _).1 (hl y hy)
        have hb := below y hy hoky
        have hc2 := hc.2
        rw [hvy, hvx] at hb
        rw [hvx, hvz] at hc2
        rw [hvy, hvz]
        simp at hb hc2 ⊢
        exact le_trans hb hc2
      · rw [if_neg hc]
        refine .inr ⟨l1, x, l2 ++ [z], by simp, hx, rfl, h1, fun y hy hoky => ?_⟩
        rcases List.mem_append.1 hy with hy | hy
        · exact h2 y hy hoky
        · simp at hy
          subst hy
          rw [hoky, hvx, hvz] at hc
          rw [hvz, hvx]
          simpa using hc

theorem mem_scanOrder {positions candidates : Nat} {pc : Nat × Nat} :
    pc ∈ scanOrder positions candidates ↔ pc.1 < positions ∧ pc.2 < candidates := by
  obtain ⟨p, c⟩ := pc
  simp [scanOrder]

/-- The scan order is ascending in the position and, inside one position, in the candidate (R150). -/
theorem scanOrder_sorted (positions candidates : Nat) :
    (scanOrder positions candidates).Pairwise
      (fun x y => x.1 < y.1 ∨ (x.1 = y.1 ∧ x.2 < y.2)) := by
  unfold scanOrder
  rw [List.pairwise_flatMap]
  refine ⟨fun p _ => ?_, ?_⟩
  · rw [List.pairwise_map]
    exact List.pairwise_lt_range.imp (fun h => .inr ⟨rfl, h⟩)
  · refine List.pairwise_lt_range.imp (fun {p q} h x hx y hy => ?_)
    simp at hx hy
    obtain ⟨_, _, rfl⟩ := hx
    obtain ⟨_, _, rfl⟩ := hy
    exact .inl h

/-- An element that comes later than `x` in a sorted list stands in the part after `x`. -/
theorem mem_after_of_sorted {ι : Type} {lt : ι → ι → Prop} (hasymm : ∀ x y, lt x y → ¬ lt y x)
    {l1 l2 : List ι} {x y : ι} (hs : (l1 ++ x :: l2).Pairwise lt) (hy : y ∈ l1 ++ x :: l2) (hlt : lt x y) :
    y ∈ l2 := by
  rw [List.pairwise_append] at hs
  rcases List.mem_append.1 hy with hy | hy
  · exact absurd (hs.2.2 y hy x List.mem_cons_self) (hasymm _ _ hlt)
  · rcases List.mem_cons.1 hy with rfl | hy
    · exact absurd hlt (hasymm _ _ hlt)
    · exact hy

/-- What the global search answers on an admitted store, without the loop (R151). -/
theorem RmUnit.findMax_spec {u : RmUnit} (h : Memory.allAdmitted u.matrix = true) :
    ((∀ p c, p < u.messageLength → c < u.nbSymbols → vlt vzero (u.entry p c) = false) ∧
        u.findMax = (vzero, 0, 0)) ∨
      ∃ p c, p < u.messageLength ∧ c < u.nbSymbols ∧ u.findMax = (u.entry p c, c, p) ∧
        vlt vzero (u.entry p c) = true ∧
        (∀ q d, q < u.messageLength → d < u.nbSymbols → vle (u.entry q d) (u.entry p c) = true) ∧
        (∀ q d, q < u.messageLength → d < u.nbSymbols → (p < q ∨ (p = q ∧ c < d)) →
          vlt (u.entry q d) (u.entry p c) = true) := by
  have key := lastMaximum_spec (fun pc : Nat × Nat => u.entry pc.1 pc.2)
    (fun pc => vlt vzero (u.entry pc.1 pc.2)) (fun pc => (pc.2, pc.1)) (0, 0)
    (scanOrder u.messageLength u.nbSymbols) (fun x _ => RmUnit.admitted_entry h _ _)
  have nonpos : ∀ q d w, vlt vzero w = true → vlt vzero (u.entry q d) = false →
      Val.admitted w = true → vlt (u.entry q d) w = true := by
    intro q d w hw hn ha
    obtain ⟨x, hx, e⟩ := (Val.admitted_iff _).1 (RmUnit.admitted_entry h q d)
    obtain ⟨y, hy, rfl⟩ := (Val.admitted_iff _).1 ha
    rw [e] at hn ⊢
    simp at hw hn ⊢
    exact lt_of_le_of_lt hn hw
  have le_of_vlt : ∀ q d w, vlt (u.entry q d) w = true → Val.admitted w = true → vle (u.entry q d) w = true := by
    intro q d w hw ha
    obtain ⟨x, hx, e⟩ := (Val.admitted_iff _).1 (RmUnit.admitted_entry h q d)
    obtain ⟨y, hy, rfl⟩ := (Val.admitted_iff _).1 ha
    rw [e] at hw ⊢
    simp at hw ⊢
    exact le_of_lt hw
  rcases key with ⟨hnone, hr⟩ | ⟨l1, ⟨p, c⟩, l2, hl, hpos, hr, h1, h2⟩
  · exact .inl ⟨fun p c hp hc => hnone (p, c) (mem_scanOrder.2 ⟨hp, hc⟩), hr⟩
  · have hmem : (p, c) ∈ scanOrder u.messageLength u.nbSymbols := by rw [hl]; simp
    obtain ⟨hp, hc⟩ := mem_scanOrder.1 hmem
    have later : ∀ q d, q < u.messageLength → d < u.nbSymbols → (p < q ∨ (p = q ∧ c < d)) →
        vlt (u.entry q d) (u.entry p c) = true := by
      intro q d hq hd hlt
      cases hq' : vlt vzero (u.entry q d) with
      | false => exact nonpos q d _ hpos hq' (RmUnit.admitted_entry h p c)
      | true =>
        refine h2 (q, d) ?_ hq'
        have hs := scanOrder_sorted u.messageLength u.nbSymbols
        rw [hl] at hs
        refine mem_after_of_sorted (x := (p, c)) ?_ hs ?_ hlt
        · rintro ⟨a, b⟩ ⟨a', b'⟩ h h'
          simp only at h h'
          omega
        · rw [← hl]; exact mem_scanOrder.2 ⟨hq, hd⟩
    refine .inr ⟨p, c, hp, hc, hr, hpos, fun q d hq hd => ?_, later⟩
    cases hq' : vlt vzero (u.entry q d) with
    | false =>
      exact le_of_vlt q d _ (nonpos q d _ hpos hq' (RmUnit.admitted_entry h p c)) (RmUnit.admitted_entry h p c)
    | true =>
      have hin : (q, d) ∈ l1 ++ (p, c) :: l2 := by rw [← hl]; exact mem_scanOrder.2 ⟨hq, hd⟩
      rcases List.mem_append.1 hin with hin | hin
      · exact h1 (q, d) hin hq'
      · rcases List.mem_cons.1 hin with e | hin
        · cases e
          obtain ⟨x, _, e⟩ := (Val.admitted_iff _).1 (RmUnit.admitted_entry h p c)
          simp [e]
        · exact le_of_vlt q d _ (h2 (q, d) hin hq') (RmUnit.admitted_entry h p c)

/-- What the search of one column answers on an admitted store, without the loop (R154, R155). -/
theorem RmUnit.findMaxInCol_spec {u : RmUnit} (h : Memory.allAdmitted u.matrix = true) (p : Nat) (bound : Val) :
    ((u.messageLength ≤ p ∨
          ∀ c, c < u.nbSymbols → ¬ (vlt vzero (u.entry p c) = true ∧ vlt (u.entry p c) bound = true)) ∧
        u.findMaxInCol p bound = (vzero, 0)) ∨
      ∃ c, p < u.messageLength ∧ c < u.nbSymbols ∧ u.findMaxInCol p bound = (u.entry p c, c) ∧
        vlt vzero (u.entry p c) = true ∧ vlt (u.entry p c) bound = true ∧
        ∀ d, d < u.nbSymbols → vlt vzero (u.entry p d) = true → vlt (u.entry p d) bound = true →
          vle (u.entry p d) (u.entry p c) = true ∧ (c < d → vlt (u.entry p d) (u.entry p c) = true) := by
  unfold RmUnit.findMaxInCol
  split
  · rename_i hp
    have key := lastMaximum_spec (fun c : Nat => u.entry p c)
      (fun c => vlt vzero (u.entry p c) && vlt (u.entry p c) bound) (fun c => c) 0
      (List.range u.nbSymbols) (fun x _ => RmUnit.admitted_entry h _ _)
    rcases key with ⟨hnone, hr⟩ | ⟨l1, c, l2, hl, hok, hr, h1, h2⟩
    · refine .inl ⟨.inr (fun c hc hboth => ?_), hr⟩
      have := hnone c (by simpa using hc)
      rw [hboth.1, hboth.2] at this
      simp at this
    · have hmem : c ∈ List.range u.nbSymbols := by rw [hl]; simp
      rw [Bool.and_eq_true] at hok
      refine .inr ⟨c, hp, by simpa using hmem, hr, hok.1, hok.2, fun d hd hpos hlt => ?_⟩
      have hdok : (vlt vzero (u.entry p d) && vlt (u.entry p d) bound) = true := by rw [hpos, hlt]; rfl
      have hin : d ∈ l1 ++ c :: l2 := by rw [← hl]; simpa using hd
      have hs := List.pairwise_lt_range (n := u.nbSymbols)
      rw [hl] at hs
      obtain ⟨x, _, ex⟩ := (Val.admitted_iff _).1 (RmUnit.admitted_entry h p c)
      obtain ⟨y, _, ey⟩ := (Val.admitted_iff _).1 (RmUnit.admitted_entry h p d)
      refine ⟨?_, fun hcd => h2 d (mem_after_of_sorted (fun _ _ a b => Nat.lt_asymm a b) hs hin hcd) hdok⟩
      rcases List.mem_append.1 hin with hin | hin
      · exact h1 d hin hdok
      · rcases List.mem_cons.1 hin with rfl | hin
        · simp [ey]
        · have := h2 d hin hdok
          rw [ex, ey] at this ⊢
          simp at this ⊢
          exact le_of_lt this
  · rename_i hp
    exact .inl ⟨.inl (Nat.le_of_not_lt hp), rfl⟩

/-! ### The dump (R159) -/

theorem RmUnit.dump_length (u : RmUnit) : u.dump.length = u.nbSymbols * u.messageLength := by
  simp [RmUnit.dump, List.length_flatMap]

/-- Element `i` of a concatenation of rows of one length. -/
theorem getElem?_flatMap_range {α : Type} (rows width : Nat) (f : Nat → Nat → α) {r c : Nat} (hr : r < rows)
    (hc : c < width) :
    ((List.range rows).flatMap (fun r => (List.range width).map (f r)))[r * width + c]? = some (f r c) := by
  induction rows with
  | zero => omega
  | succ n ih =>
    rw [List.range_succ, List.flatMap_append]
    have hlen : ((List.range n).flatMap (fun r => (List.range width).map (f r))).length = n * width := by
      simp [List.length_flatMap]
    rcases Nat.lt_or_ge r n with h | h
    · rw [List.getElem?_append_left]
      · exact ih h
      · rw [hlen]
        calc r * width + c < (r + 1) * width := by rw [Nat.succ_mul]; omega
          _ ≤ n * width := Nat.mul_le_mul_right _ h
    · have : r = n := by omega
      subst this
      rw [List.getElem?_append_right (by rw [hlen]; omega), hlen]
      simp [hc]

end Sys2Proof.Machine
end

