-- ==== Sys2Proof/Laws/Exec.lean ====
section
/-!
SUPPORT. What an operation can do, said once: it always answers, and it changes nothing outside its unit and the
response ports (and, for `RM`, the count of free values).
-/

namespace Sys2Proof.Machine

/-- An operation answers: a next state with a response, no fault and no refusal. -/
def Answered (s : State) (o : Host.Outcome State Fault Refusal) : Prop :=
  ∃ t r, o = .next t ∧ t.response = some r ∧ t.inputs = s.inputs ∧ t.params = s.params

theorem answered_respond {s s0 : State} (r : Result) (hi : s.inputs = s0.inputs) (hp : s.params = s0.params) :
    Answered s0 (respond r s) := ⟨_, _, rfl, rfl, hi, hp⟩

theorem answered_raise (st : Status) (s : State) : Answered s (raise st s) := ⟨_, _, rfl, rfl, rfl, rfl⟩

theorem answered_whenEnc {s : State} {run : Host.Outcome State Fault Refusal} (h : Answered s run) :
    Answered s (whenEncConfigured s run) := by
  unfold whenEncConfigured
  split
  · exact h
  · exact answered_raise _ _

theorem answered_whenRm {s : State} {run : Host.Outcome State Fault Refusal} (h : Answered s run) :
    Answered s (whenRmConfigured s run) := by
  unfold whenRmConfigured
  split
  · exact h
  · exact answered_raise _ _

theorem answered_whenShaped {ok : Bool} {s : State} {run : Host.Outcome State Fault Refusal}
    (h : Answered s run) : Answered s (whenShaped ok s run) := by
  unfold whenShaped
  split
  · exact h
  · exact answered_raise _ _

theorem exec_answered (i : Instr) (s : State) : Answered s (exec i s) := by
  cases i with
  | encConfig cons gpoly =>
    simp only [exec, execEncConfig]
    split
    · exact answered_raise _ _
    · split
      · exact answered_raise _ _
      · exact answered_respond _ rfl rfl
  | encEncode sym flag => exact answered_whenEnc (answered_respond _ rfl rfl)
  | encClear => exact answered_whenEnc (answered_respond _ rfl rfl)
  | encGetRegisters => exact answered_whenEnc (answered_respond _ rfl rfl)
  | encSetRegisters regs => exact answered_whenEnc (answered_whenShaped (answered_respond _ rfl rfl))
  | encInfo => exact answered_whenEnc (answered_respond _ rfl rfl)
  | rmConfig log2 len =>
    simp only [exec, execRmConfig]
    split
    · exact answered_raise _ _
    · split
      · exact answered_raise _ _
      · exact answered_respond _ rfl rfl
  | rmEnterSymbol vals => exact answered_whenRm (answered_whenShaped (answered_respond _ rfl rfl))
  | rmEnterSymbolAt idx vals => exact answered_whenRm (answered_whenShaped (answered_respond _ rfl rfl))
  | rmEnterErasure => exact answered_whenRm (answered_respond _ rfl rfl)
  | rmEnterErasureAt idx => exact answered_whenRm (answered_respond _ rfl rfl)
  | rmNormalize => exact answered_whenRm (by split <;> exact answered_respond _ rfl rfl)
  | rmDeinterleave => exact answered_whenRm (answered_respond _ rfl rfl)
  | rmFindMax => exact answered_whenRm (by split <;> exact answered_respond _ rfl rfl)
  | rmFindMaxInCol idx val => exact answered_whenRm (by split <;> exact answered_respond _ rfl rfl)
  | rmRead idx2 idx => exact answered_whenRm (by split <;> exact answered_respond _ rfl rfl)
  | rmDump => exact answered_whenRm (answered_respond _ rfl rfl)

/-- The state after an operation is the one it answers. -/
theorem exec_after (i : Instr) (s : State) : exec i s = .next (after i s) := by
  obtain ⟨t, _, h, _⟩ := exec_answered i s
  unfold after
  rw [h]

theorem after_eq {i : Instr} {s t : State} (h : exec i s = .next t) : after i s = t := by
  unfold after
  rw [h]

@[simp] theorem after_params (i : Instr) (s : State) : (after i s).params = s.params := by
  obtain ⟨t, _, h, _, _, hp⟩ := exec_answered i s
  rw [after_eq h, hp]

@[simp] theorem after_inputs (i : Instr) (s : State) : (after i s).inputs = s.inputs := by
  obtain ⟨t, _, h, _, hi, _⟩ := exec_answered i s
  rw [after_eq h, hi]

/-! ### Outcomes of one shape -/

/-- An outcome that changes at most `ENC` and the response ports. -/
def EncOnly (s : State) (o : Host.Outcome State Fault Refusal) : Prop :=
  ∃ u r, o = .next { s with enc := u, response := r }

theorem encOnly_raise (st : Status) (s : State) : EncOnly s (raise st s) := ⟨s.enc, _, rfl⟩

theorem encOnly_whenEnc {s : State} {run : Host.Outcome State Fault Refusal} (h : EncOnly s run) :
    EncOnly s (whenEncConfigured s run) := by
  unfold whenEncConfigured
  split
  · exact h
  · exact encOnly_raise _ _

/-- An operation of `ENC` changes at most `ENC` and the response ports (00_scope.md R2). -/
theorem exec_encOnly {i : Instr} (h : i.unit = .enc) (s : State) : EncOnly s (exec i s) := by
  cases i with
  | encConfig cons gpoly =>
    simp only [exec, execEncConfig]
    split
    · exact encOnly_raise _ _
    · split
      · exact encOnly_raise _ _
      · exact ⟨_, _, rfl⟩
  | encEncode sym flag => exact encOnly_whenEnc ⟨_, _, rfl⟩
  | encClear => exact encOnly_whenEnc ⟨_, _, rfl⟩
  | encGetRegisters => exact encOnly_whenEnc ⟨s.enc, _, rfl⟩
  | encSetRegisters regs =>
    refine encOnly_whenEnc ?_
    unfold whenShaped
    split
    · exact ⟨_, _, rfl⟩
    · exact encOnly_raise _ _
  | encInfo => exact encOnly_whenEnc ⟨s.enc, _, rfl⟩
  | _ => simp [Instr.unit] at h

/-- An outcome that changes at most `RM`, the response ports and the count of free values. -/
def RmOnly (s : State) (o : Host.Outcome State Fault Refusal) : Prop :=
  ∃ u r n, o = .next { s with rm := u, response := r, draws := n }

theorem rmOnly_raise (st : Status) (s : State) : RmOnly s (raise st s) := ⟨s.rm, _, s.draws, rfl⟩

theorem rmOnly_whenRm {s : State} {run : Host.Outcome State Fault Refusal} (h : RmOnly s run) :
    RmOnly s (whenRmConfigured s run) := by
  unfold whenRmConfigured
  split
  · exact h
  · exact rmOnly_raise _ _

theorem rmOnly_whenShaped {ok : Bool} {s : State} {run : Host.Outcome State Fault Refusal} (h : RmOnly s run) :
    RmOnly s (whenShaped ok s run) := by
  unfold whenShaped
  split
  · exact h
  · exact rmOnly_raise _ _

/-- An operation of `RM` changes at most `RM`, the response ports and the count of free values (00_scope.md
R2). -/
theorem exec_rmOnly {i : Instr} (h : i.unit = .rm) (s : State) : RmOnly s (exec i s) := by
  cases i with
  | rmConfig log2 len =>
    simp only [exec, execRmConfig]
    split
    · exact rmOnly_raise _ _
    · split
      · exact rmOnly_raise _ _
      · exact ⟨_, _, s.draws, rfl⟩
  | rmEnterSymbol vals => exact rmOnly_whenRm (rmOnly_whenShaped ⟨_, _, s.draws, rfl⟩)
  | rmEnterSymbolAt idx vals => exact rmOnly_whenRm (rmOnly_whenShaped ⟨_, _, s.draws, rfl⟩)
  | rmEnterErasure => exact rmOnly_whenRm ⟨_, _, s.draws, rfl⟩
  | rmEnterErasureAt idx => exact rmOnly_whenRm ⟨_, _, s.draws, rfl⟩
  | rmNormalize =>
    refine rmOnly_whenRm ?_
    split
    · exact ⟨_, _, s.draws, rfl⟩
    · exact ⟨_, _, _, rfl⟩
  | rmDeinterleave => exact rmOnly_whenRm ⟨_, _, s.draws, rfl⟩
  | rmFindMax =>
    refine rmOnly_whenRm ?_
    split
    · exact ⟨s.rm, _, s.draws, rfl⟩
    · exact ⟨s.rm, _, _, rfl⟩
  | rmFindMaxInCol idx val =>
    refine rmOnly_whenRm ?_
    split
    · exact ⟨s.rm, _, s.draws, rfl⟩
    · exact ⟨s.rm, _, _, rfl⟩
  | rmRead idx2 idx =>
    refine rmOnly_whenRm ?_
    split
    · exact ⟨s.rm, _, s.draws, rfl⟩
    · exact ⟨s.rm, _, _, rfl⟩
  | rmDump => exact rmOnly_whenRm ⟨s.rm, _, s.draws, rfl⟩
  | _ => simp [Instr.unit] at h

/-! ### Keeping the invariant of `RM` -/

theorem RmUnit.writeColumn_inv {p : Params} {u : RmUnit} (h : RmUnit.Inv p u) (pos : Nat) {vals : List Val}
    (hlen : vals.length = u.nbSymbols) : RmUnit.Inv p (u.writeColumn pos vals) := by
  refine ⟨RmUnit.writeColumn_wf h.canonical _ _, fun x hx => ?_, ?_, ?_⟩
  · rw [RmUnit.writeColumn_size]
    rcases RmUnit.mem_writeColumn hlen hx with hx | hx
    · exact h.insideStore x hx
    · exact hx.1
  · simpa using h.cursorBound
  · simpa using h.capacity

theorem RmUnit.appendColumn_inv {p : Params} {u : RmUnit} (h : RmUnit.Inv p u) {vals : List Val}
    (hlen : vals.length = u.nbSymbols) : RmUnit.Inv p (u.appendColumn vals) := by
  refine ⟨RmUnit.appendColumn_wf h.canonical _, fun x hx => ?_, ?_, ?_⟩
  · rw [RmUnit.appendColumn_size]
    rcases RmUnit.mem_appendColumn hlen hx with hx | hx
    · exact h.insideStore x hx
    · exact hx.1
  · rw [RmUnit.appendColumn_cursor, RmUnit.appendColumn_messageLength]
    have := h.cursorBound
    split <;> omega
  · simpa using h.capacity

theorem RmUnit.rewrite_inv {p : Params} {u : RmUnit} (h : RmUnit.Inv p u) (g : Nat → Nat → Val) :
    RmUnit.Inv p (u.rewrite g) :=
  ⟨RmUnit.rewrite_wf _ _, fun _ hx => (RmUnit.mem_rewrite hx).1, h.cursorBound, h.capacity⟩

theorem RmUnit.normalized_inv {p : Params} {u : RmUnit} (h : RmUnit.Inv p u) (f : Numeric) :
    RmUnit.Inv p (u.normalized f) := RmUnit.rewrite_inv h _

theorem RmUnit.deinterleaved_inv {p : Params} {u : RmUnit} (h : RmUnit.Inv p u) :
    RmUnit.Inv p u.deinterleaved := RmUnit.rewrite_inv h _

theorem RmUnit.scrambled_inv {p : Params} {u : RmUnit} (h : RmUnit.Inv p u) (n : Nat) :
    RmUnit.Inv p (u.scrambled n) :=
  ⟨Memory.tabulate_wf _ _, fun _ hx => (Memory.mem_tabulate.1 hx).1, h.cursorBound, h.capacity⟩

/-- The column searches of a run: what one of them answers. -/
theorem exec_findMaxInCol {s : State} (hc : s.rm.configured = true)
    (ha : Memory.allAdmitted s.rm.matrix = true) (p : Nat) {bound : Val} (hb : Val.comparable bound = true) :
    exec (.rmFindMaxInCol p bound) s =
      .next { s with response := some ⟨.ok, .columnMaximum (s.rm.findMaxInCol p bound).1
        (s.rm.findMaxInCol p bound).2⟩ } := by
  show execRmFindMaxInCol p bound s = _
  unfold execRmFindMaxInCol
  rw [whenRmConfigured_of_configured hc, if_pos (by rw [ha, hb]; rfl)]
  rfl

end Sys2Proof.Machine
end

