-- ==== Sys2Proof/Laws/PerInstr.lean ====
section
/-!
SUPPORT. Statements about every operation as syntax, one lemma per constructor.
-/

namespace Sys2Proof.Laws.RoundTrip

/-- Decoding the encoded operation gives it back, whenever its operands fit on their ports. -/
def Statement (i : Instr) : Prop :=
  ∀ p : Params, i.wf p = true → decode p (encode i).op (encode i).ports = .ok i

theorem encConfig (cons : List Nat) (gpoly : List (List Nat)) : Statement (.encConfig cons gpoly) := by
  intro p h
  simp only [Instr.wf, Bool.and_eq_true] at h
  have h1 := map_eq_self_of_all (fun _ => natOnPort_of_fits) h.1
  have h2 := map_eq_self_of_all (fun _ hr => map_eq_self_of_all (fun _ => wordOnPort_of_fits) hr) h.2
  refine decode_of_fields (op := 0x10) (unit := 1) (func := 0) rfl rfl ?_
  show some (Instr.encConfig (cons.map (natOnPort p.wC)) (gpoly.map fun row => row.map (wordOnPort p.wR))) = _
  rw [h1, h2]

theorem encEncode (sym : Nat) (flag : Bool) : Statement (.encEncode sym flag) := by
  intro p h
  refine decode_of_fields (op := 0x11) (unit := 1) (func := 1) rfl rfl ?_
  show some (Instr.encEncode (wordOnPort p.wS sym) flag) = _
  rw [wordOnPort_of_fits h]

theorem encClear : Statement .encClear := fun _ _ =>
  decode_of_fields (op := 0x12) (unit := 1) (func := 2) rfl rfl rfl

theorem encGetRegisters : Statement .encGetRegisters := fun _ _ =>
  decode_of_fields (op := 0x13) (unit := 1) (func := 3) rfl rfl rfl

theorem encSetRegisters (regs : List Nat) : Statement (.encSetRegisters regs) := by
  intro p h
  refine decode_of_fields (op := 0x14) (unit := 1) (func := 4) rfl rfl ?_
  show some (Instr.encSetRegisters (regs.map (wordOnPort p.wR))) = _
  rw [map_eq_self_of_all (fun _ => wordOnPort_of_fits) h]

theorem encInfo : Statement .encInfo := fun _ _ =>
  decode_of_fields (op := 0x15) (unit := 1) (func := 5) rfl rfl rfl

theorem rmConfig (log2 len : Nat) : Statement (.rmConfig log2 len) := by
  intro p h
  simp only [Instr.wf, Bool.and_eq_true] at h
  refine decode_of_fields (op := 0x20) (unit := 2) (func := 0) rfl rfl ?_
  show some (Instr.rmConfig (natOnPort p.wIdx log2) (natOnPort p.wIdx len)) = _
  rw [natOnPort_of_fits h.1, natOnPort_of_fits h.2]

theorem rmEnterSymbol (vals : List Val) : Statement (.rmEnterSymbol vals) := fun _ _ =>
  decode_of_fields (op := 0x21) (unit := 2) (func := 1) rfl rfl rfl

theorem rmEnterSymbolAt (idx : Nat) (vals : List Val) : Statement (.rmEnterSymbolAt idx vals) := by
  intro p h
  refine decode_of_fields (op := 0x22) (unit := 2) (func := 2) rfl rfl ?_
  show some (Instr.rmEnterSymbolAt (natOnPort p.wIdx idx) vals) = _
  rw [natOnPort_of_fits h]

theorem rmEnterErasure : Statement .rmEnterErasure := fun _ _ =>
  decode_of_fields (op := 0x23) (unit := 2) (func := 3) rfl rfl rfl

theorem rmEnterErasureAt (idx : Nat) : Statement (.rmEnterErasureAt idx) := by
  intro p h
  refine decode_of_fields (op := 0x24) (unit := 2) (func := 4) rfl rfl ?_
  show some (Instr.rmEnterErasureAt (natOnPort p.wIdx idx)) = _
  rw [natOnPort_of_fits h]

theorem rmNormalize : Statement .rmNormalize := fun _ _ =>
  decode_of_fields (op := 0x25) (unit := 2) (func := 5) rfl rfl rfl

theorem rmDeinterleave : Statement .rmDeinterleave := fun _ _ =>
  decode_of_fields (op := 0x26) (unit := 2) (func := 6) rfl rfl rfl

theorem rmFindMax : Statement .rmFindMax := fun _ _ =>
  decode_of_fields (op := 0x27) (unit := 2) (func := 7) rfl rfl rfl

theorem rmFindMaxInCol (idx : Nat) (val : Val) : Statement (.rmFindMaxInCol idx val) := by
  intro p h
  refine decode_of_fields (op := 0x28) (unit := 2) (func := 8) rfl rfl ?_
  show some (Instr.rmFindMaxInCol (natOnPort p.wIdx idx) val) = _
  rw [natOnPort_of_fits h]

theorem rmRead (idx2 idx : Nat) : Statement (.rmRead idx2 idx) := by
  intro p h
  simp only [Instr.wf, Bool.and_eq_true] at h
  refine decode_of_fields (op := 0x29) (unit := 2) (func := 9) rfl rfl ?_
  show some (Instr.rmRead (natOnPort p.wIdx idx2) (natOnPort p.wIdx idx)) = _
  rw [natOnPort_of_fits h.1, natOnPort_of_fits h.2]

theorem rmDump : Statement .rmDump := fun _ _ =>
  decode_of_fields (op := 0x2A) (unit := 2) (func := 10) rfl rfl rfl

end Sys2Proof.Laws.RoundTrip
end

