-- ==== Sys2Proof/Tests/Slice0.lean ====
section
/-!
SUPPORT. The model's own tests: the well-formedness checks, decoding of written-out opcode bytes, one or two
instances of spec/95_test_vectors.md per operation, and, for every statement with hypotheses, a state and operands
that meet them all. Expected results are the spec's, named V<n> or P<n> of that file, or R<n> of a rule.
-/

namespace Sys2Proof.Tests

open Sys2Proof.Machine

/-! ### Fixtures -/

/-- Parameters with every width bounded: `K = 2`, `W_R = 8`, `W_S = 8`, `RM_CAP = 16`, `W_IDX = 4`, `W_C = 5`. -/
def tight : Params :=
  { k := 2, wR := 8, wS := 8, rmCap := some 16, wIdx := some 4, wC := some 5, numeric := .exact }

/-- The reference code C75 (40_encoder_ops.md) with one register. -/
def c75 (r : Nat) : EncUnit :=
  { configured := true, constraints := [3], n := 2, m := 3, genpoly := [[7, 5]], reg := [r] }

/-- The code of V9, with two registers. -/
def code9 (r0 r1 : Nat) : EncUnit :=
  { configured := true, constraints := [2, 2], n := 3, m := 2, genpoly := [[3, 1, 2], [1, 3, 3]], reg := [r0, r1] }

/-- The reference matrix M44 as V20 leaves it. -/
def m44 : RmUnit :=
  { configured := true, nbSymbolsLog2 := 2, messageLength := 4
    matrix := [(0, .fin 1), (1, .fin 3), (3, .fin 4), (4, .fin 2), (5, .fin 2), (6, .fin 2), (7, .fin 2),
      (13, .fin 5), (14, .fin 5)]
    messageSymbolCount := 4 }

/-- M44 normalised, N44 (43_matrix_read_ops.md). -/
def n44 : RmUnit :=
  { m44 with
    matrix := [(0, .fin (1/8)), (1, .fin (3/8)), (3, .fin (1/2)), (4, .fin (1/4)), (5, .fin (1/4)),
      (6, .fin (1/4)), (7, .fin (1/4)), (13, .fin (1/2)), (14, .fin (1/2))] }

/-- The five columns of V25, `[10 + p, p]`. -/
def m25 : RmUnit :=
  { configured := true, nbSymbolsLog2 := 1, messageLength := 5
    matrix := [(0, .fin 10), (2, .fin 11), (3, .fin 1), (4, .fin 12), (5, .fin 2), (6, .fin 13), (7, .fin 3),
      (8, .fin 14), (9, .fin 4)]
    messageSymbolCount := 5 }

/-- The machine after reset with other contents of the encoder. -/
def withEncoder (u : EncUnit) : State := State.reset.withEnc u

/-- The machine after reset, for two input bits, with other contents of the encoder. -/
def withEncoder2 (u : EncUnit) : State := (State.resetWith tight).withEnc u

/-- The machine after reset with other contents of the matrix. -/
def withMatrix (u : RmUnit) : State := State.reset.withRm u

/-- Both units configured: C75 with register `0b10`, and M44. -/
def both : State := (withEncoder (c75 2)).withRm m44

/-- The response of an operation. -/
def answer (i : Instr) (s : State) : Option Response := (after i s).response

/-- A response with status `OK`. -/
def good (r : Result) : Option Response := some { status := .ok, result := r }

/-- A response with another status. -/
def bad (st : Status) : Option Response := some { status := st, result := .none }

/-! ### Well-formedness: every check refuses a term that breaks it -/

theorem test_wf_accepts_config : Instr.wf tight (.encConfig [31, 0] [[255], [0, 1]]) = true := by decide
theorem test_wf_refuses_wide_constraint : Instr.wf tight (.encConfig [32] [[255]]) = false := by decide
theorem test_wf_refuses_wide_mask : Instr.wf tight (.encConfig [3] [[7], [256]]) = false := by decide
theorem test_wf_refuses_wide_symbol : Instr.wf tight (.encEncode 256 false) = false := by decide
theorem test_wf_refuses_wide_register : Instr.wf tight (.encSetRegisters [0, 256]) = false := by decide
theorem test_wf_refuses_wide_log2 : Instr.wf tight (.rmConfig 16 0) = false := by decide
theorem test_wf_refuses_wide_length : Instr.wf tight (.rmConfig 0 16) = false := by decide
theorem test_wf_refuses_wide_write_position : Instr.wf tight (.rmEnterSymbolAt 16 []) = false := by decide
theorem test_wf_refuses_wide_erasure_position : Instr.wf tight (.rmEnterErasureAt 16) = false := by decide
theorem test_wf_refuses_wide_column : Instr.wf tight (.rmFindMaxInCol 16 vzero) = false := by decide
theorem test_wf_refuses_wide_candidate : Instr.wf tight (.rmRead 16 15) = false := by decide
theorem test_wf_refuses_wide_position : Instr.wf tight (.rmRead 15 16) = false := by decide

/-! ### Decoding: the opcode bytes of R76, written out as UNIT and FUNC nibbles -/

/-- Ports that hold something everywhere, so that a port read in another's place shows. -/
def fullPorts : Ports :=
  { flag := true, sym := 9, regs := [1, 2], cons := [3], gpoly := [[4, 5]], log2 := 6, len := 7, idx := 10, idx2 := 11,
    vals := [.fin 12], val := .fin 13 }

/-- What the decoder reads from an opcode byte with those ports. -/
def decoded (op : BitVec 8) : Except DecodeError Instr := decode Params.standard op fullPorts

theorem test_decode_enc_config : decoded 0b00010000#8 = .ok (.encConfig [3] [[4, 5]]) := by rfl
theorem test_decode_enc_encode : decoded 0b00010001#8 = .ok (.encEncode 9 true) := by rfl
theorem test_decode_enc_clear : decoded 0b00010010#8 = .ok .encClear := by rfl
theorem test_decode_enc_get_registers : decoded 0b00010011#8 = .ok .encGetRegisters := by rfl
theorem test_decode_enc_set_registers : decoded 0b00010100#8 = .ok (.encSetRegisters [1, 2]) := by rfl
theorem test_decode_enc_info : decoded 0b00010101#8 = .ok .encInfo := by rfl
theorem test_decode_rm_config : decoded 0b00100000#8 = .ok (.rmConfig 6 7) := by rfl
theorem test_decode_rm_enter_symbol : decoded 0b00100001#8 = .ok (.rmEnterSymbol [.fin 12]) := by rfl
theorem test_decode_rm_enter_symbol_at : decoded 0b00100010#8 = .ok (.rmEnterSymbolAt 10 [.fin 12]) := by rfl
theorem test_decode_rm_enter_erasure : decoded 0b00100011#8 = .ok .rmEnterErasure := by rfl
theorem test_decode_rm_enter_erasure_at : decoded 0b00100100#8 = .ok (.rmEnterErasureAt 10) := by rfl
theorem test_decode_rm_normalize : decoded 0b00100101#8 = .ok .rmNormalize := by rfl
theorem test_decode_rm_deinterleave : decoded 0b00100110#8 = .ok .rmDeinterleave := by rfl
theorem test_decode_rm_find_max : decoded 0b00100111#8 = .ok .rmFindMax := by rfl
theorem test_decode_rm_find_max_in_col : decoded 0b00101000#8 = .ok (.rmFindMaxInCol 10 (.fin 13)) := by rfl
theorem test_decode_rm_read : decoded 0b00101001#8 = .ok (.rmRead 11 10) := by rfl
theorem test_decode_rm_dump : decoded 0b00101010#8 = .ok .rmDump := by rfl

/-- R77: the edges of the reserved ranges are rejected by name. -/
theorem test_decode_reserved :
    [0x00, 0x0F, 0x16, 0x1F, 0x2B, 0x30, 0xFF].map decoded =
      [.error (.reservedOpcode 0x00), .error (.reservedOpcode 0x0F), .error (.reservedOpcode 0x16),
       .error (.reservedOpcode 0x1F), .error (.reservedOpcode 0x2B), .error (.reservedOpcode 0x30),
       .error (.reservedOpcode 0xFF)] := by rfl

/-- R73: a port carries its width and no more. -/
theorem test_decode_latches_ports :
    decode tight 0x29 { idx := 17, idx2 := 18 } = .ok (.rmRead 2 1) := by rfl

theorem test_decode_table_word : decodeTableWord 8 0x2A = some .rmDump := by decide
theorem test_decode_table_word_reserved : decodeTableWord 8 0x16 = none := by decide
theorem test_decode_table_word_other_width : decodeTableWord 16 0x2A = none := by decide

/-- After reset a placed word runs: `RM.CONFIG` with ports of zeros configures the matrix. -/
theorem test_fetch_word_runs :
    (match step (State.reset.withFetchWord 8 0x20) with
      | .next t => t.rm.configured
      | _ => false) = true := by decide

/-! ### The spelling of R81 -/

theorem test_spell_config : spell (.encConfig [3] [[7, 5]]) = "ENC.CONFIG [3], [[7, 5]]" := by decide +kernel
theorem test_spell_encoded : spellEncoded (Instr.encStep 1) = "11 | SYM=0x01 FLAG=0" := by decide +kernel

/-! ### The encoder -/

/-- V9: two inputs, the longer vector is cut. -/
theorem test_enc_config_v9 :
    (after (.encConfig [2, 2] [[3, 1, 2], [1, 3, 3, 1]]) (State.resetWith tight)).enc = code9 0 0 := by decide

/-- V12: every cause, and the accepted corner cases. -/
theorem test_enc_config_v12 :
    [([3, 3], [[7, 5]]), ([3], [[7, 5], [7, 5]]), ([9], [[7, 5]]), ([3], [[7]]), ([3], [[1, 1, 1, 1, 1, 1, 1, 1, 1]]),
      ([3, 3], [[7, 5], [7, 5]]), ([9], [[7]])].map (fun x => answer (.encConfig x.1 x.2) State.reset) =
      [bad (.errConfig .constraintCount), bad (.errConfig .generatorCount),
       bad (.errConfig .constraintExceedsRegister), bad (.errConfig .outputsNotAboveInputs),
       bad (.errConfig .outputsExceedSymbol), bad (.errConfig .constraintCount),
       bad (.errConfig .constraintExceedsRegister)] := by decide

/-- V6 and V7 with V1: replace keeps bit 7, step loses it. -/
theorem test_enc_encode_v7 :
    [after (.encEncode 1 true) (withEncoder (c75 0x80)), after (.encEncode 1 false) (withEncoder (c75 0x80)),
      after (.encEncode 0 true) (withEncoder (c75 5)), after (.encEncode 1 false) (withEncoder (c75 5))].map
        (fun s => (s.enc.reg, s.response)) =
      [([0x81], good (.symbol 3)), ([0x01], good (.symbol 3)), ([4], good (.symbol 3)),
       ([0b1011], good (.symbol 2))] := by decide

/-- V9 row 5 and V10: two registers, and symbol bits at or above `K` are not read. -/
theorem test_enc_encode_v10 :
    [after (.encEncode 3 false) (withEncoder2 (code9 0b1010 0b110)),
      after (.encEncode 7 false) (withEncoder2 (code9 0 0))].map (fun s => (s.enc.reg, s.response)) =
      [([0b10101, 0b1101], good (.symbol 4)), ([1, 1], good (.symbol 4))] := by decide

/-- V14. -/
theorem test_enc_clear_v14 : (after .encClear (withEncoder (c75 0b1011))).enc = c75 0 := by decide

/-- P5 line 11. -/
theorem test_enc_get_registers_p5 :
    answer .encGetRegisters (withEncoder2 (code9 0x15 0x0D)) = good (.registers [0x15, 0x0D]) := by decide

/-- V13 and V43. -/
theorem test_enc_set_registers_v13 :
    (after (.encSetRegisters [0xA5]) (withEncoder (c75 0b1011))).enc = c75 0xA5 ∧
      answer (.encSetRegisters [1, 2]) (withEncoder (c75 0)) = bad .errIllegal := by decide

/-- V15. -/
theorem test_enc_info_v15 :
    answer .encInfo (withEncoder2 (code9 0 0)) =
      good (.info 2 3 2 [2, 2] [[3, 1, 2], [1, 3, 3]]) := by decide

/-! ### The matrix -/

/-- V44 and V42: the capacity, and a second construction. -/
theorem test_rm_config_v44 :
    answer (.rmConfig 2 4) (State.resetWith tight) = good .none ∧
      answer (.rmConfig 2 5) (State.resetWith tight) = bad .errCapacity ∧
      answer (.rmConfig 1 1) (withMatrix m44) = bad .errAlreadyConfigured := by decide +kernel

/-- V20 steps 5 and 6: the fourth column, and a fifth insertion dropped. -/
theorem test_rm_enter_symbol_v20 :
    (after (.rmEnterSymbol [.fin 0, .fin 5, .fin 5, .fin 0])
        (withMatrix { m44 with matrix := m44.matrix.take 7, messageSymbolCount := 3 })).rm = m44 ∧
      (after (.rmEnterSymbol [.fin 9, .fin 9, .fin 9, .fin 9]) (withMatrix m44)).rm = m44 := by decide +kernel

/-- V21 steps 1 and 2, V43. -/
theorem test_rm_enter_symbol_at_v21 :
    memRead (after (.rmEnterSymbolAt 2 [.fin 1, .fin 0, .fin 0, .fin 0]) (withMatrix n44)).rm.matrix 8 4 =
        [.fin 1, .fin 0, .fin 0, .fin 0] ∧
      (after (.rmEnterSymbolAt 7 [.fin 1, .fin 1, .fin 1, .fin 1]) (withMatrix n44)).rm = n44 ∧
      answer (.rmEnterSymbolAt 9 [.fin 1, .fin 2, .fin 3]) (withMatrix n44) = bad .errIllegal := by decide +kernel

/-- V20 steps 4 and 7. -/
theorem test_rm_enter_erasure_v20 :
    (after .rmEnterErasure (withMatrix { m44 with messageSymbolCount := 2 })).rm = { m44 with messageSymbolCount := 3 } ∧
      (after .rmEnterErasure (withMatrix m44)).rm = m44 := by decide +kernel

/-- V21 steps 3 and 4. -/
theorem test_rm_enter_erasure_at_v21 :
    memRead (after (.rmEnterErasureAt 1) (withMatrix n44)).rm.matrix 3 6 =
        [.fin (1/2), .fin 0, .fin 0, .fin 0, .fin 0, .fin 0] ∧
      (after (.rmEnterErasureAt 4) (withMatrix n44)).rm = n44 := by decide +kernel

/-- V23. -/
theorem test_rm_normalize_v23 : (after .rmNormalize (withMatrix m44)).rm = n44 := by decide +kernel

/-- V25: first entries 10, 14, 12, 11, 13, the candidates kept in order, the cursor still 5. -/
theorem test_rm_deinterleave_v25 :
    memRead (after .rmDeinterleave (withMatrix m25)).rm.matrix 0 10 =
        [.fin 10, .fin 0, .fin 14, .fin 4, .fin 12, .fin 2, .fin 11, .fin 1, .fin 13, .fin 3] ∧
      (after .rmDeinterleave (withMatrix m25)).rm.messageSymbolCount = 5 := by decide +kernel

/-- V23 after normalisation, and V30: nothing positive. -/
theorem test_rm_find_max_v30 :
    answer .rmFindMax (withMatrix n44) = good (.maximum (.fin (1/2)) 2 3) ∧
      answer .rmFindMax (withMatrix { m44 with matrix := [] }) = good (.maximum vzero 0 0) := by decide +kernel

/-- V34 column 0, V33 and V35. -/
theorem test_rm_find_max_in_col_v34 :
    [(0, .fin 10), (0, .fin (1/2)), (0, .fin (3/8)), (0, .fin (1/8)), (1, .fin (1/4)), (3, .posInf), (4, .fin 10)].map
        (fun x => answer (.rmFindMaxInCol x.1 x.2) (withMatrix n44)) =
      [good (.columnMaximum (.fin (1/2)) 3), good (.columnMaximum (.fin (3/8)) 1),
       good (.columnMaximum (.fin (1/8)) 0), good (.columnMaximum vzero 0), good (.columnMaximum vzero 0),
       good (.columnMaximum (.fin (1/2)) 2), good (.columnMaximum vzero 0)] := by decide +kernel

/-- V36: the candidate comes first; out of range the status is `OK` and the unit unchanged. -/
theorem test_rm_read_v36 :
    answer (.rmRead 1 0) (withMatrix n44) = good (.value (.fin (3/8))) ∧
      answer (.rmRead 3 1) (withMatrix n44) = good (.value (.fin (1/4))) ∧
      ((answer (.rmRead 4 0) (withMatrix n44)).map Response.status, (after (.rmRead 4 0) (withMatrix n44)).rm) =
        (some .ok, n44) := by decide +kernel

/-- V37, before normalisation. -/
theorem test_rm_dump_v37 :
    answer .rmDump (withMatrix m44) = good (.dump ([1, 2, 0, 0, 3, 2, 0, 5, 0, 2, 0, 5, 4, 2, 0, 0].map .fin)) := by
  decide +kernel

/-- V40: an unconfigured unit. -/
theorem test_not_configured_v40 :
    answer (.encEncode 1 false) State.reset = bad .errNotConfigured ∧
      answer (.rmEnterSymbol [.fin 1, .fin 2]) (withEncoder (c75 0)) = bad .errNotConfigured := by decide +kernel

/-! ### Witnesses: states and operands that meet the hypotheses of each statement -/

/-- A machine whose host is about to issue one command. -/
def about (op : BitVec 8) (s : State) : State := s.issue { op := op }

theorem both_inv : both.Inv where
  parameters := by decide
  encoder := by
    constructor <;> decide
  matrix := by
    refine ⟨?_, ?_, ?_, ?_⟩ <;> decide +kernel
  errorsCarryNoResult := by simp [both, withEncoder, State.reset, State.resetWith]

theorem both_configured : both.enc.configured = true ∧ both.rm.configured = true := by decide

theorem both_admitted : Memory.allAdmitted both.rm.matrix = true := by decide +kernel

/-- A store with a negative entry. -/
def spoiled : State := both.withRm { m44 with matrix := [(2, .fin (-1))] }

theorem witness_ReservedOpcodesAreAnsweredIllegal :
    ∀ op ∈ [0x00#8, 0x0F#8, 0x16#8, 0x1F#8, 0x2B#8, 0xFF#8],
      (about op both).inputs = .command { op := op, ports := {} } :: [] ∧
        (op.toNat ≤ 0x0F ∨ (0x16 ≤ op.toNat ∧ op.toNat ≤ 0x1F) ∨ 0x2B ≤ op.toNat) := by decide

theorem witness_DecodeInvertsEncode : Instr.wf tight (.rmRead 15 15) = true := by decide

theorem witness_DecodedOperationsAreCanonical :
    decode tight 0x29 { idx := 17, idx2 := 18, sym := 1 } = .ok (.rmRead 2 1) := by rfl

/-- Ports that agree on one format and differ everywhere else. -/
theorem witness_DecodedOperationsAreCanonical_ports :
    agreeOnFormat 0x29 { idx := 10, idx2 := 11 } fullPorts ∧ agreeOnFormat 0x11 { sym := 9, flag := true } fullPorts ∧
      agreeOnFormat 0x12 {} fullPorts ∧ agreeOnFormat 0x2B {} fullPorts := by
  refine ⟨⟨rfl, rfl⟩, ⟨rfl, rfl⟩, trivial, trivial⟩

theorem witness_StepRunsTheDecodedOperation :
    (about 0x12 both).inputs = .command { op := 0x12, ports := {} } :: [] ∧
      decode (about 0x12 both).params 0x12 {} = .ok .encClear := ⟨rfl, rfl⟩

theorem witness_IdleUnitsKeepTheirState : both.inputs = [] := rfl

theorem witness_ResetUnconfiguresBothUnits : (both.withInputs [.reset]).inputs = .reset :: [] := rfl

theorem witness_EveryInputIsAnswered :
    (about 0x16 both).inputs = .command { op := 0x16, ports := {} } :: [] := rfl

theorem witness_ResetMeetsTheInvariant : tight.wf := by decide

theorem witness_StepKeepsTheInvariant :
    (about 0x12 both).Inv ∧ step (about 0x12 both) = .next (after .encClear both) :=
  ⟨⟨both_inv.parameters, both_inv.encoder, both_inv.matrix, both_inv.errorsCarryNoResult⟩, rfl⟩

theorem witness_ExceptionsChangeNothing :
    exec (.encConfig [] []) both = .next (after (.encConfig [] []) both) ∧
      (after (.encConfig [] []) both).response = some { status := .errAlreadyConfigured, result := .none } ∧
      Status.errAlreadyConfigured ≠ .ok := ⟨rfl, rfl, by decide⟩

theorem witness_ExceptionsChangeNothing_step :
    (about 0x16 both).inputs = .command { op := 0x16, ports := {} } :: [] ∧
      ∃ t, step (about 0x16 both) = .next t ∧ t.response = some { status := .errIllegal, result := .none } :=
  ⟨rfl, _, rfl, rfl⟩

theorem witness_CodeDefinitionIsImmutable :
    both.enc.configured = true ∧ (about 0x12 both).inputs.head? ≠ some .reset ∧
      step (about 0x12 both) = .next (after .encClear both) := ⟨rfl, by simp [about, State.issue], rfl⟩

theorem witness_MatrixDimensionsAreImmutable :
    both.rm.configured = true ∧ (about 0x26 both).inputs.head? ≠ some .reset ∧
      step (about 0x26 both) = .next (after .rmDeinterleave both) := ⟨rfl, by simp [about, State.issue], rfl⟩

theorem witness_UnitsAreIndependent :
    Instr.unit .encClear = .enc ∧ Instr.unit .rmDump = .rm := ⟨rfl, rfl⟩

theorem witness_InterleavingIsUnobservable :
    [Instr.encClear, .rmDump].filter (fun i => decide (i.unit = .enc)) =
        [Instr.rmDump, .encClear].filter (fun i => decide (i.unit = .enc)) ∧
      [Instr.encClear, .rmDump].filter (fun i => decide (i.unit = .rm)) =
        [Instr.rmDump, .encClear].filter (fun i => decide (i.unit = .rm)) := by decide

theorem witness_ContentsBeforeConfigAreUnobservable :
    State.reset.enc.configured = false ∧ { c75 9 with configured := false }.configured = false ∧
      State.reset.rm.configured = false ∧ { m44 with configured := false }.configured = false :=
  ⟨rfl, rfl, rfl, rfl⟩

theorem witness_UnconfiguredUnitsRefuse :
    (Instr.isConfig .encInfo = false ∧ Instr.unit .encInfo = .enc ∧ State.reset.enc.configured = false) ∧
      Instr.isConfig .rmDump = false ∧ Instr.unit .rmDump = .rm ∧ State.reset.rm.configured = false := by decide

theorem witness_WrongShapeIsIllegal :
    both.enc.configured = true ∧ ([1, 2] : List Nat).length ≠ both.params.k ∧ both.rm.configured = true ∧
      ([vzero, vzero, vzero] : List Val).length ≠ 2 ^ both.rm.nbSymbolsLog2 := by decide

theorem witness_IntegerPrimitivesAreTheSpecs : 0xFF < 2 ^ 8 ∧ 7 < 8 := by decide

theorem witness_ValuesObeyTheirInterface :
    Val.admitted (.fin 0) = true ∧ Val.admitted (.fin (1/2)) = true ∧ Val.admitted (.fin 3) = true ∧
      vle (.fin 0) (.fin (1/2)) = true ∧ vle (.fin (1/2)) (.fin 3) = true ∧ Val.fin (1/2) ≠ vzero ∧
      vle (.fin 3) (.fin 3) = true ∧ vadd .exact (.fin 0) (.fin 0) = vzero := by decide +kernel

theorem witness_EncConfigBuildsTheCode :
    (State.resetWith tight).enc.configured = false ∧ ([8, 0] : List Nat).length = tight.k ∧ tight.k ≤ tight.wS ∧
      [[3, 1, 2], [1, 3, 3, 1]].length = tight.k ∧ (∀ c ∈ [8, 0], c ≤ tight.wR) ∧
      (∀ row ∈ [[3, 1, 2], [1, 3, 3, 1]], tight.k < row.length) ∧
      ∃ row ∈ [[3, 1, 2], [1, 3, 3, 1]], row.length ≤ tight.wS := by decide

/-- Each clause of the statement has operands that reach it, at the edge of its range (V12). -/
theorem witness_EncConfigReportsTheFirstFailingCheck :
    State.reset.params.wf ∧ State.reset.enc.configured = false ∧
      ([3, 3] : List Nat).length ≠ State.reset.params.k ∧ ([8] : List Nat).length = State.reset.params.k ∧
      (List.replicate 9 1).length = 9 ∧ 8 < 9 ∧ State.reset.params.k ≤ State.reset.params.wS ∧
      [[7, 5], [7, 5]].length ≠ State.reset.params.k ∧ [[7]].length = State.reset.params.k ∧
      (∃ c ∈ [9], State.reset.params.wR < c) ∧ (∀ c ∈ [8], c ≤ State.reset.params.wR) ∧
      (∃ row ∈ [[7]], row.length ≤ State.reset.params.k) ∧
      ∀ row ∈ [List.replicate 9 1], State.reset.params.wS < row.length := by decide

theorem witness_EncodeUpdatesRegistersAndOutput : both.enc.configured = true ∧ 1 ≤ both.params.wR := by decide

theorem witness_ReplaceOverwritesTheLastSymbol :
    1 ≤ both.params.wR ∧ both.enc.configured = true ∧
      exec (.encEncode 1 false) both = .next (after (.encEncode 1 false) both) := ⟨by decide, rfl, rfl⟩

/-- Two states and symbols that differ where the answer may not look: constraints, `m`, the matrix, symbol bit 7. -/
theorem witness_EncodeIsPure :
    both.enc.configured = true ∧ { c75 2 with constraints := [5], m := 5 }.configured = true ∧
      both.enc.n = { c75 2 with constraints := [5], m := 5 }.n ∧
      (∀ j, j < both.params.k → both.enc.reg.getD j 0 = { c75 2 with constraints := [5], m := 5 }.reg.getD j 0) ∧
      (∀ j, j < both.params.k → ∀ i, i < both.enc.n → (both.enc.genpoly.getD j []).getD i 0 =
        ({ c75 2 with constraints := [5], m := 5 }.genpoly.getD j []).getD i 0) ∧
      ∀ j, j < both.params.k → Nat.testBit 0x81 j = Nat.testBit 0x01 j := by decide

theorem witness_EncodeIsLinear :
    both.enc.configured = true ∧ 1 ≤ both.params.wR ∧
      ∀ j, j < both.params.k → ([6] : List Nat).getD j 0 = ([5] : List Nat).getD j 0 ^^^ ([3] : List Nat).getD j 0 := by
  decide

theorem witness_ClearZeroesTheRegisters : (withEncoder (c75 0b1011)).enc.configured = true := rfl

theorem witness_GetRegistersReturnsTheRegisters : (withEncoder2 (code9 0x15 0x0D)).enc.configured = true := rfl

theorem witness_InfoReadsTheCodeDefinition : (withEncoder2 (code9 0 0)).enc.configured = true := rfl

theorem witness_SetRegistersReplacesTheRegisters :
    both.enc.configured = true ∧ ([0xA5] : List Nat).length = both.params.k := by decide

theorem witness_SnapshotRestoresTheEncoder : both.Inv ∧ both.enc.configured = true := ⟨both_inv, rfl⟩

theorem witness_RmConfigBuildsAZeroMatrix :
    (State.resetWith tight).rm.configured = false ∧
      ∀ cap, (State.resetWith tight).params.rmCap = some cap → 2 ^ 2 * 4 ≤ cap := by
  refine ⟨rfl, fun cap h => ?_⟩
  cases h
  decide

theorem witness_RmConfigRefusals :
    both.rm.configured = true ∧ (State.resetWith tight).rm.configured = false ∧
      (State.resetWith tight).params.rmCap = some 16 ∧ 16 < 2 ^ 2 * 5 := by decide

/-- Both clauses: a cursor just below `L`, and at `L`. -/
theorem witness_EnterSymbolFillsTheCursorColumn :
    (∀ cursor ∈ [3, 4], { m44 with messageSymbolCount := cursor }.configured = true ∧
        Memory.wf { m44 with messageSymbolCount := cursor }.matrix) ∧
      (List.replicate 4 vzero).length = m44.nbSymbols ∧ 3 < m44.messageLength ∧ m44.messageLength ≤ 4 := by
  decide +kernel

/-- Both clauses, also of `ErasuresZeroOneColumn`: the last position, and the first outside. -/
theorem witness_EnterSymbolAtFillsThePosition :
    both.rm.configured = true ∧ Memory.wf both.rm.matrix ∧ (List.replicate 4 vzero).length = both.rm.nbSymbols ∧
      3 < both.rm.messageLength ∧ both.rm.messageLength ≤ 4 := by decide +kernel

theorem witness_ErasuresZeroOneColumn :
    (∀ cursor ∈ [3, 4], { m44 with messageSymbolCount := cursor }.configured = true ∧
        Memory.wf { m44 with messageSymbolCount := cursor }.matrix) ∧
      3 < m44.messageLength ∧ m44.messageLength ≤ 4 := by decide +kernel

theorem witness_CursorCountsInsertions :
    (withMatrix { m44 with messageSymbolCount := 0 }).rm.configured = true ∧
      (withMatrix { m44 with messageSymbolCount := 0 }).rm.messageSymbolCount = 0 := ⟨rfl, rfl⟩

theorem witness_AdmittedStoreStaysAdmitted :
    suppliesAdmitted (.rmEnterSymbol (List.replicate 4 (.fin 9))) = true ∧
      Memory.allAdmitted both.rm.matrix = true ∧
      exec (.rmEnterSymbol (List.replicate 4 (.fin 9))) both =
        .next (after (.rmEnterSymbol (List.replicate 4 (.fin 9))) both) :=
  ⟨by decide +kernel, both_admitted, exec_after _ _⟩

theorem witness_NormalizeDividesByTheColumnSum :
    both.rm.configured = true ∧ RmUnit.Inv both.params both.rm ∧ Memory.allAdmitted both.rm.matrix = true ∧
      3 < both.rm.messageLength ∧ 3 < both.rm.nbSymbols :=
  ⟨rfl, both_inv.matrix, both_admitted, by decide, by decide⟩

/-- Both clauses: the last column, which has a sum, and a column without. -/
theorem witness_NormalizedColumnsSumToOne :
    both.rm.configured = true ∧ both.params.numeric = .exact ∧ Memory.allAdmitted both.rm.matrix = true ∧
      (3 < both.rm.messageLength ∧ both.rm.columnSum .exact 3 ≠ vzero) ∧
      2 < both.rm.messageLength ∧ both.rm.columnSum .exact 2 = vzero := by decide +kernel

theorem witness_ExactNormalizeIsIdempotentAndMonotone :
    both.rm.configured = true ∧ both.params.numeric = .exact ∧ Memory.allAdmitted both.rm.matrix = true ∧
      3 < both.rm.messageLength ∧ 3 < both.rm.nbSymbols := by decide +kernel

theorem witness_DeinterleaveMovesWholeColumns :
    both.rm.configured = true ∧ RmUnit.Inv both.params both.rm ∧ 3 < both.rm.messageLength ∧
      3 < both.rm.nbSymbols := ⟨rfl, both_inv.matrix, by decide, by decide⟩

theorem witness_NormalizeAndDeinterleaveCommute :
    both.rm.configured = true ∧ Memory.allAdmitted both.rm.matrix = true := ⟨rfl, both_admitted⟩

theorem witness_DumpIsTheTransposedStore :
    both.rm.configured = true ∧ 3 < both.rm.nbSymbols ∧ 3 < both.rm.messageLength := by decide

theorem witness_DeinterleaveIsThePermutationByBitReversal :
    both.rm.configured = true ∧ exec .rmDeinterleave both = .next (after .rmDeinterleave both) ∧ 3 < 4 ∧ 4 < 5 :=
  ⟨rfl, rfl, by decide, by decide⟩

theorem witness_PowerOfTwoDeinterleaveUndoesItself :
    both.rm.configured = true ∧ RmUnit.Inv both.params both.rm ∧ both.rm.messageLength = 2 ^ 2 ∧ 3 < 2 ^ 2 :=
  ⟨rfl, both_inv.matrix, rfl, by decide⟩

/-- The two clauses of the global search: a store with a positive entry, and one without. -/
theorem witness_FindMaxIsTheLastGreatestEntry :
    both.rm.configured = true ∧ Memory.allAdmitted both.rm.matrix = true ∧
    (3 < both.rm.messageLength ∧ 2 < both.rm.nbSymbols ∧ vlt vzero (both.rm.entry 3 2) = true) ∧
      ∀ p c, p < m44.messageLength → c < m44.nbSymbols →
        ¬ vlt vzero ({ m44 with matrix := [] }.entry p c) = true := by
  refine ⟨rfl, both_admitted, by decide +kernel, fun p c _ _ => ?_⟩
  simp [RmUnit.entry, vlt, Val.place]

/-- The clauses of the column search: found, nothing below the bound, and the first column outside. -/
theorem witness_FindMaxInColIsTheLastGreatestBelowTheBound :
    both.rm.configured = true ∧ Memory.allAdmitted both.rm.matrix = true ∧ Val.comparable (.fin 5) = true ∧
      0 < both.rm.messageLength ∧
      (3 < both.rm.nbSymbols ∧ vlt vzero (both.rm.entry 0 3) = true ∧ vlt (both.rm.entry 0 3) (.fin 5) = true) ∧
      (∀ c, c < both.rm.nbSymbols →
        ¬ (vlt vzero (both.rm.entry 3 c) = true ∧ vlt (both.rm.entry 3 c) (.fin 5) = true)) ∧
      both.rm.messageLength ≤ 4 := by decide +kernel

theorem witness_RankedExtractionEnumeratesTheColumn :
    both.rm.configured = true ∧ Memory.allAdmitted both.rm.matrix = true ∧ Val.comparable .posInf = true ∧
      0 < both.rm.messageLength ∧ (∀ c, c < both.rm.nbSymbols → vlt (both.rm.entry 0 c) .posInf = true) ∧
      both.rm.nbSymbols ≤ 4 := by decide +kernel

/-- The clauses of the read: the last entry, the first position outside, the first candidate outside. -/
theorem witness_ReadReturnsTheEntry :
    both.rm.configured = true ∧ (3 < both.rm.messageLength ∧ 3 < both.rm.nbSymbols) ∧
      both.rm.messageLength ≤ 4 ∧ both.rm.nbSymbols ≤ 4 := by decide

/-- Every form the statement names, the read at the last entry; all but the searches also on a spoiled store. -/
theorem witness_ReadsAndIndexedWritesAreIdempotent :
    (Memory.wf both.rm.matrix ∧ Memory.allAdmitted both.rm.matrix = true ∧ Val.comparable (.fin 5) = true ∧
      3 < both.rm.messageLength ∧ 3 < both.rm.nbSymbols) ∧
      (Memory.wf spoiled.rm.matrix ∧ Memory.allAdmitted spoiled.rm.matrix = false ∧
        3 < spoiled.rm.messageLength ∧ 3 < spoiled.rm.nbSymbols) ∧
      ∀ i ∈ [.rmEnterSymbolAt 3 (List.replicate 4 vzero), .rmEnterErasureAt 3, .rmRead 3 3, .rmDump, .rmFindMax,
          .rmFindMaxInCol 3 (.fin 5)],
        exec i both = .next (after i both) ∧ exec i spoiled = .next (after i spoiled) :=
  ⟨by decide +kernel, by decide +kernel, fun i _ => ⟨exec_after i both, exec_after i spoiled⟩⟩

theorem witness_UndefinedResultsAreFreeValues :
    spoiled.rm.configured = true ∧ Memory.allAdmitted spoiled.rm.matrix = false ∧
      Val.comparable (.nan 0) = false := by decide +kernel

end Sys2Proof.Tests
end

namespace Sys2Proof.Machine

/-! ### The two units are independent (00_scope.md R2)

`exec_encOnly` and `exec_rmOnly` say what an operation writes. What it does not read is said as an equation: to
overwrite the other unit before the operation is to overwrite it in the answer. -/

/-- The outcome with its next state changed by `f`. -/
def mapNext (f : State → State) : Host.Outcome State Fault Refusal → Host.Outcome State Fault Refusal
  | .next t => .next (f t)
  | .fault r => .fault r
  | .refused r => .refused r

@[simp] theorem mapNext_next (f : State → State) (t : State) : mapNext f (.next t) = .next (f t) := rfl

/-- A check that reads nothing of what `f` overwrites, as the prologue checks are, passes `f` on to its two
branches. -/
theorem ite_eq_mapNext {f : State → State} {c : Prop} [Decidable c] {a b a' b' : Host.Outcome State Fault Refusal}
    (ha : a' = mapNext f a) (hb : b' = mapNext f b) :
    (if c then a' else b') = mapNext f (if c then a else b) := by
  split
  · exact ha
  · exact hb

/-- The state with other contents of `RM` and another count of free values. -/
def State.withRmDraws (s : State) (u : RmUnit) (n : Nat) : State := { s with rm := u, draws := n }

@[simp] theorem State.withRmDraws_params (s : State) (u : RmUnit) (n : Nat) :
    (s.withRmDraws u n).params = s.params := rfl

/-- An operation of `ENC` reads neither `RM` nor the count of free values. -/
theorem exec_withRmDraws {i : Instr} (h : i.unit = .enc) (s : State) (u : RmUnit) (n : Nat) :
    exec i (s.withRmDraws u n) = mapNext (·.withRmDraws u n) (exec i s) := by
  cases i with
  | encConfig cons gpoly =>
    refine ite_eq_mapNext rfl ?_
    rw [State.withRmDraws_params]
    cases configCause s.params cons gpoly <;> rfl
  | encEncode sym flag => exact ite_eq_mapNext rfl rfl
  | encClear => exact ite_eq_mapNext rfl rfl
  | encGetRegisters => exact ite_eq_mapNext rfl rfl
  | encSetRegisters regs => exact ite_eq_mapNext (ite_eq_mapNext rfl rfl) rfl
  | encInfo => exact ite_eq_mapNext rfl rfl
  | _ => simp [Instr.unit] at h

/-- An operation of `RM` does not read `ENC`. -/
theorem exec_withEnc {i : Instr} (h : i.unit = .rm) (s : State) (u : EncUnit) :
    exec i (s.withEnc u) = mapNext (·.withEnc u) (exec i s) := by
  cases i with
  | rmConfig log2 len => exact ite_eq_mapNext rfl (ite_eq_mapNext rfl rfl)
  | rmEnterSymbol vals => exact ite_eq_mapNext (ite_eq_mapNext rfl rfl) rfl
  | rmEnterSymbolAt idx vals => exact ite_eq_mapNext (ite_eq_mapNext rfl rfl) rfl
  | rmEnterErasure => exact ite_eq_mapNext rfl rfl
  | rmEnterErasureAt idx => exact ite_eq_mapNext rfl rfl
  | rmNormalize => exact ite_eq_mapNext (ite_eq_mapNext rfl rfl) rfl
  | rmDeinterleave => exact ite_eq_mapNext rfl rfl
  | rmFindMax => exact ite_eq_mapNext (ite_eq_mapNext rfl rfl) rfl
  | rmFindMaxInCol idx val => exact ite_eq_mapNext (ite_eq_mapNext rfl rfl) rfl
  | rmRead idx2 idx => exact ite_eq_mapNext (ite_eq_mapNext rfl rfl) rfl
  | rmDump => exact ite_eq_mapNext rfl rfl
  | _ => simp [Instr.unit] at h

/-- Settles O14: the frame of each unit's operations, and that they commute with overwriting the other unit. -/
theorem unitsAreIndependent : Obligations.UnitsAreIndependent := by
  intro i s
  constructor
  · intro hi
    obtain ⟨v, r, hexec⟩ := exec_encOnly hi s
    refine ⟨v, r, hexec, fun u n => ?_⟩
    have hread := exec_withRmDraws hi s u n
    rwa [hexec, mapNext_next] at hread
  · intro hi
    obtain ⟨v, r, n, hexec⟩ := exec_rmOnly hi s
    refine ⟨v, r, n, hexec, fun u => ?_⟩
    have hread := exec_withEnc hi s u
    rwa [hexec, mapNext_next] at hread

/-! ### The interface of `Val` (00_scope.md R12) -/

/-- Only two zeros have the sum zero. -/
theorem vadd_eq_vzero {f : Numeric} {a b : Val} (ha : Val.admitted a = true) (hb : Val.admitted b = true)
    (h : vadd f a b = vzero) : a = vzero ∧ b = vzero := by
  obtain ⟨x, hx, rfl⟩ := (Val.admitted_iff a).1 ha
  obtain ⟨y, hy, rfl⟩ := (Val.admitted_iff b).1 hb
  simpa [Numeric.sum_eq_zero_iff f hx hy] using h

/-- Settles O21: admitted values are non-negative rationals, on which the comparisons are those of the rationals
and `Numeric.sum` and `Numeric.quotient` obey the laws of R12 in every format. -/
theorem valuesObeyTheirInterface : Obligations.ValuesObeyTheirInterface := by
  refine ⟨fun v => by simp [Val.admitted_iff, and_comm], fun f a b c ha hb hc => ?_⟩
  have hadd := vadd_admitted f ha hb
  have hadd0 := vadd_eq_vzero (f := f) ha hb
  have hdiv := vdiv_admitted f ha hb
  obtain ⟨x, hx, rfl⟩ := (Val.admitted_iff a).1 ha
  obtain ⟨y, -, rfl⟩ := (Val.admitted_iff b).1 hb
  obtain ⟨z, -, rfl⟩ := (Val.admitted_iff c).1 hc
  refine ⟨?least, ?total, ?antisymm, ?trans, ?eq, ?lt, rfl, ?addZero, hadd, hadd0, fun _ => ⟨hdiv, ?zeroDiv⟩⟩
  case least => simpa using hx
  case total => simpa using le_total x y
  case antisymm => simpa using le_antisymm (a := x) (b := y)
  case trans => simpa using le_trans (a := x) (b := y) (c := z)
  case eq => simp
  case lt => simpa using lt_iff_le_and_ne
  case addZero => simp [Numeric.sum_zero]
  case zeroDiv => simp [Numeric.quotient_zero]

end Sys2Proof.Machine

namespace Sys2Proof.Machine

/-! ### Clearing and reading the registers (40_encoder_ops.md R106, R107) -/

/-- On a configured encoder `ENC.CLEAR` overwrites the registers with zeros. -/
theorem exec_encClear {s : State} (hc : s.enc.configured = true) :
    exec .encClear s = respond .none (s.withEnc (s.enc.writeRegs s.params.k fun _ => 0)) :=
  whenEncConfigured_of_configured hc _

/-- On a configured encoder `ENC.GET_REGISTERS` answers what reading each register gives. -/
theorem exec_encGetRegisters {s : State} (hc : s.enc.configured = true) :
    exec .encGetRegisters s = respond (.registers (s.enc.readRegs s.params.k)) s :=
  whenEncConfigured_of_configured hc _

@[simp] theorem EncUnit.readRegs_length (u : EncUnit) (k : Nat) : (u.readRegs k).length = k := by
  simp [EncUnit.readRegs]

theorem EncUnit.readRegs_getD (u : EncUnit) {k j : Nat} (h : j < k) :
    (u.readRegs k).getD j 0 = u.reg.getD j 0 := getD_map_range k u.readReg 0 h

/-- Settles O28: the next state is that of `exec_encClear`, whose register list is `K` zeros. -/
theorem clearZeroesTheRegisters : Obligations.ClearZeroesTheRegisters := by
  refine ⟨rfl, rfl, fun s hc => ⟨(s.enc.writeRegs s.params.k fun _ => 0).reg, exec_encClear hc, ?length, ?zero⟩⟩
  case length => simp
  case zero =>
    intro r hr
    obtain ⟨j, -, rfl⟩ := List.mem_map.1 hr
    rfl

/-- Settles O29: the answer is that of `exec_encGetRegisters`, compared with the registers one by one. -/
theorem getRegistersReturnsTheRegisters : Obligations.GetRegistersReturnsTheRegisters :=
  ⟨rfl, rfl, fun s hc =>
    ⟨s.enc.readRegs s.params.k, exec_encGetRegisters hc, s.enc.readRegs_length _,
      fun _ hj => s.enc.readRegs_getD hj⟩⟩

end Sys2Proof.Machine

namespace Sys2Proof.Machine

/-! ### Erasures (41_matrix_write_ops.md R124, R125) -/

/-- A column write changes the store alone. -/
theorem RmUnit.writeColumn_eq_withMatrix (u : RmUnit) (p : Nat) (vals : List Val) :
    u.writeColumn p vals = { u with matrix := (u.writeColumn p vals).matrix } := by
  unfold RmUnit.writeColumn
  split <;> rfl

/-- Below `L` a sequential insertion changes the store, as the column write at the cursor does, and the cursor. -/
theorem RmUnit.appendColumn_eq_withMatrix {u : RmUnit} (h : u.messageSymbolCount < u.messageLength)
    (vals : List Val) :
    u.appendColumn vals =
      { u with
        matrix := (u.writeColumn u.messageSymbolCount vals).matrix
        messageSymbolCount := u.messageSymbolCount + 1 } := by
  rw [RmUnit.appendColumn_of_lt h, RmUnit.writeColumn_eq_withMatrix]

/-- Every address after an erasure: the column's own elements read as zero, all others as before. -/
theorem RmUnit.read_writeColumn_vzero {u : RmUnit} (hwf : Memory.wf u.matrix) {p : Nat} (hp : p < u.messageLength)
    (a : Nat) :
    Memory.read (u.writeColumn p (List.replicate u.nbSymbols vzero)).matrix a =
      if p * u.nbSymbols ≤ a ∧ a < p * u.nbSymbols + u.nbSymbols then vzero else Memory.read u.matrix a := by
  rw [RmUnit.read_writeColumn hwf hp List.length_replicate, List.getD_eq_getElem?_getD,
    List.getElem?_getD_replicate_default_eq]
  rfl

/-- On a configured matrix `RM.ENTER_ERASURE` is a sequential insertion of zeros. -/
theorem exec_rmEnterErasure {s : State} (hc : s.rm.configured = true) :
    exec .rmEnterErasure s =
      respond .none (s.withRm (s.rm.appendColumn (List.replicate s.rm.nbSymbols vzero))) :=
  whenRmConfigured_of_configured hc _

/-- On a configured matrix `RM.ENTER_ERASURE_AT` is a column write of zeros. -/
theorem exec_rmEnterErasureAt {s : State} (hc : s.rm.configured = true) (idx : Nat) :
    exec (.rmEnterErasureAt idx) s =
      respond .none (s.withRm (s.rm.writeColumn idx (List.replicate s.rm.nbSymbols vzero))) :=
  whenRmConfigured_of_configured hc _

/-- Settles O37: both erasures write zeros by `RmUnit.writeColumn`, whose every address is known inside the matrix
and which is the identity outside. -/
theorem erasuresZeroOneColumn : Obligations.ErasuresZeroOneColumn := by
  refine ⟨rfl, rfl, fun _ => ⟨rfl, rfl⟩, fun s hc hwf => ⟨?cursorBelow, ?cursorAtEnd, fun idx => ⟨?inside, ?outside⟩⟩⟩
  case cursorBelow =>
    intro hlt
    refine ⟨_, ?_, RmUnit.read_writeColumn_vzero hwf hlt⟩
    rw [exec_rmEnterErasure hc, RmUnit.appendColumn_eq_withMatrix hlt]
    rfl
  case cursorAtEnd =>
    intro hge
    rw [exec_rmEnterErasure hc, RmUnit.appendColumn_of_ge hge]
    rfl
  case inside =>
    intro hlt
    refine ⟨_, ?_, RmUnit.read_writeColumn_vzero hwf hlt⟩
    rw [exec_rmEnterErasureAt hc, RmUnit.writeColumn_eq_withMatrix]
    rfl
  case outside =>
    intro hge
    rw [exec_rmEnterErasureAt hc, RmUnit.writeColumn_of_ge hge]
    rfl

end Sys2Proof.Machine

namespace Sys2Proof.Machine

/-! ### The global search (43_matrix_read_ops.md R151) -/

/-- On a configured matrix of admitted values `RM.FIND_MAX` answers what `RmUnit.findMax` gives. -/
theorem exec_rmFindMax {s : State} (hc : s.rm.configured = true) (ha : Memory.allAdmitted s.rm.matrix = true) :
    exec .rmFindMax s = respond (.maximum s.rm.findMax.1 s.rm.findMax.2.1 s.rm.findMax.2.2) s :=
  (whenRmConfigured_of_configured hc _).trans (if_pos ha)

/-- Settles O49: the answer is that of `exec_rmFindMax`, and the two cases of `RmUnit.findMax_spec` are the two
clauses; the premise of each clause excludes the other case. -/
theorem findMaxIsTheLastGreatestEntry : Obligations.FindMaxIsTheLastGreatestEntry := by
  refine ⟨rfl, rfl, fun s hc ha => ⟨_, _, _, exec_rmFindMax hc ha, ?_⟩⟩
  rcases RmUnit.findMax_spec ha with ⟨hnone, hmax⟩ | ⟨p, c, hp, hcand, hmax, hpos, hgreatest, hlast⟩
  · rw [hmax]
    refine ⟨fun _ => ⟨rfl, rfl, rfl⟩, fun ⟨q, d, hq, hd, hpos⟩ => ?_⟩
    exact absurd hpos (Bool.eq_false_iff.1 (hnone q d hq hd))
  · rw [hmax]
    exact ⟨fun hnone => absurd hpos (hnone p c hp hcand), fun _ => ⟨hpos, hp, hcand, rfl, hgreatest, hlast⟩⟩

end Sys2Proof.Machine

namespace Sys2Proof.Machine

/-! ### The idle machine (60_exceptions.md R188) -/

/-- Settles O6: the list of inputs alone selects the arm of `step`, and the arm of the empty list hands the state
back. -/
theorem idleUnitsKeepTheirState : Obligations.IdleUnitsKeepTheirState := by
  intro s hidle
  unfold step
  rw [hidle]

end Sys2Proof.Machine

namespace Sys2Proof.Machine

/-! ### The command interface (30_encoding.md sections 2 to 4) -/

/-- Settles O3: one lemma of `Laws.RoundTrip` per operation, each decoding the opcode byte and the ports that the
encoder drives. -/
theorem decodeInvertsEncode : Obligations.DecodeInvertsEncode := by
  intro p i
  cases i with
  | encConfig cons gpoly => exact Laws.RoundTrip.encConfig cons gpoly p
  | encEncode sym flag => exact Laws.RoundTrip.encEncode sym flag p
  | encClear => exact Laws.RoundTrip.encClear p
  | encGetRegisters => exact Laws.RoundTrip.encGetRegisters p
  | encSetRegisters regs => exact Laws.RoundTrip.encSetRegisters regs p
  | encInfo => exact Laws.RoundTrip.encInfo p
  | rmConfig log2 len => exact Laws.RoundTrip.rmConfig log2 len p
  | rmEnterSymbol vals => exact Laws.RoundTrip.rmEnterSymbol vals p
  | rmEnterSymbolAt idx vals => exact Laws.RoundTrip.rmEnterSymbolAt idx vals p
  | rmEnterErasure => exact Laws.RoundTrip.rmEnterErasure p
  | rmEnterErasureAt idx => exact Laws.RoundTrip.rmEnterErasureAt idx p
  | rmNormalize => exact Laws.RoundTrip.rmNormalize p
  | rmDeinterleave => exact Laws.RoundTrip.rmDeinterleave p
  | rmFindMax => exact Laws.RoundTrip.rmFindMax p
  | rmFindMaxInCol idx val => exact Laws.RoundTrip.rmFindMaxInCol idx val p
  | rmRead idx2 idx => exact Laws.RoundTrip.rmRead idx2 idx p
  | rmDump => exact Laws.RoundTrip.rmDump p

/-- An operation read from two fields has the opcode that those fields make. -/
theorem opcode_of_decodeFields {unit func : Nat} {q : Ports} {i : Instr}
    (h : decodeFields unit func q = some i) : i.opcode.toNat = 16 * unit + func := by
  unfold decodeFields decodeEnc decodeRm at h
  split at h
  · split at h <;> simp only [Option.some.injEq, reduceCtorEq] at h <;> subst h <;> rfl
  · split at h <;> simp only [Option.some.injEq, reduceCtorEq] at h <;> subst h <;> rfl
  · simp at h

/-- The two fields make the opcode byte (R72). -/
theorem opcode_eq_fields (op : BitVec 8) : op.toNat = 16 * unitField op + funcField op :=
  (Nat.div_add_mod op.toNat 16).symm

/-- What the decoder accepts has the opcode it was read from. -/
theorem opcode_of_decode {p : Params} {op : BitVec 8} {q : Ports} {i : Instr} (h : decode p op q = .ok i) :
    i.opcode = op := by
  unfold decode at h
  split at h
  · rename_i hfields
    cases h
    exact BitVec.eq_of_toNat_eq ((opcode_of_decodeFields hfields).trans (opcode_eq_fields op).symm)
  · simp at h

/-- The opcodes that the map does not assign (R77). -/
def Reserved (op : BitVec 8) : Prop :=
  op.toNat ≤ 0x0F ∨ (0x16 ≤ op.toNat ∧ op.toNat ≤ 0x1F) ∨ 0x2B ≤ op.toNat

theorem not_reserved_opcode (i : Instr) : ¬ Reserved i.opcode := by
  cases i <;> simp [Reserved, Instr.opcode]

/-- A command is answered by the decoder with an operation, or rejected by the name of its opcode. -/
theorem decode_cases (p : Params) (op : BitVec 8) (q : Ports) :
    (∃ i, decode p op q = .ok i) ∨ decode p op q = .error (.reservedOpcode op) := by
  unfold decode
  split
  · exact .inl ⟨_, rfl⟩
  · exact .inr rfl

theorem decode_of_reserved {p : Params} {op : BitVec 8} (h : Reserved op) (q : Ports) :
    decode p op q = .error (.reservedOpcode op) := by
  rcases decode_cases p op q with ⟨i, hi⟩ | he
  · rw [← opcode_of_decode hi] at h
    exact absurd h (not_reserved_opcode i)
  · exact he

/-- The function codes of `ENC` read the ports of their format alone (R78). -/
theorem decodeEnc_congr {op : BitVec 8} {func : Nat} (hop : op.toNat = 16 * 1 + func) {q r : Ports}
    (h : agreeOnFormat op q r) (p : Params) : decodeEnc func (q.latch p) = decodeEnc func (r.latch p) := by
  unfold agreeOnFormat at h
  rw [hop] at h
  unfold decodeEnc
  split <;> simp_all [Ports.latch]

/-- The function codes of `RM` read the ports of their format alone (R78). -/
theorem decodeRm_congr {op : BitVec 8} {func : Nat} (hop : op.toNat = 16 * 2 + func) {q r : Ports}
    (h : agreeOnFormat op q r) (p : Params) : decodeRm func (q.latch p) = decodeRm func (r.latch p) := by
  unfold agreeOnFormat at h
  rw [hop] at h
  unfold decodeRm
  split <;> simp_all [Ports.latch]

/-- Port values that agree on the format of the opcode decode alike. -/
theorem decode_congr {op : BitVec 8} {q r : Ports} (h : agreeOnFormat op q r) (p : Params) :
    decode p op q = decode p op r := by
  have hfields : decodeFields (unitField op) (funcField op) (q.latch p) =
      decodeFields (unitField op) (funcField op) (r.latch p) := by
    have hop := opcode_eq_fields op
    unfold decodeFields
    split <;> rename_i hu
    · exact decodeEnc_congr (hu ▸ hop) h p
    · exact decodeRm_congr (hu ▸ hop) h p
    · rfl
  unfold decode
  rw [hfields]

/-- Settles O4: what is decoded is well-formed and has the opcode it was read from, so the round trip of
`decodeInvertsEncode` applies to it; the other clause is `decode_congr`. -/
theorem decodedOperationsAreCanonical : Obligations.DecodedOperationsAreCanonical := by
  refine ⟨fun p op q i h => ?_, fun p op q r h => decode_congr h p⟩
  have hwf := decode_wf h
  have hop : (encode i).op = op := opcode_of_decode h
  exact ⟨hwf, hop, hop ▸ decodeInvertsEncode p i hwf⟩

/-- Settles O1: each opcode byte splits into its two fields, which select the arm of the decoder; the unit of an
operation is the upper nibble of its opcode, operation by operation. -/
theorem everyOpcodeDecodesToItsOperation : Obligations.EveryOpcodeDecodesToItsOperation := by
  refine ⟨fun p q => ⟨rfl, rfl, rfl, rfl, rfl, rfl, rfl, rfl, rfl, rfl, rfl, rfl, rfl, rfl, rfl, rfl, rfl⟩,
    fun i => ?_⟩
  cases i <;> simp [Instr.unit, Instr.opcode]

/-- Settles O18: the code tables, entry by entry. -/
theorem statusAndCauseCodes : Obligations.StatusAndCauseCodes :=
  ⟨rfl, fun _ => rfl, rfl, rfl, rfl, rfl, rfl, rfl, rfl, rfl, rfl, rfl⟩

/-! ### One step, by the kind of its input -/

theorem step_reset {s : State} {rest : List HostInput} (h : s.inputs = .reset :: rest) :
    step s = applyReset (s.withInputs rest) := by
  unfold step
  rw [h]

theorem step_operation {s : State} {c : Command} {rest : List HostInput} {i : Instr}
    (h : s.inputs = .command c :: rest) (hi : decode s.params c.op c.ports = .ok i) :
    step s = exec i (s.withInputs rest) := by
  unfold step
  rw [h]
  simp only [hi]

theorem step_reserved {s : State} {c : Command} {rest : List HostInput} {e : DecodeError}
    (h : s.inputs = .command c :: rest) (he : decode s.params c.op c.ports = .error e) :
    step s = raise .errIllegal (s.withInputs rest) := by
  unfold step
  rw [h]
  simp only [he]
  rfl

/-- What a step can do: stay idle, reset both units, run a decoded operation, or refuse a reserved opcode. -/
theorem step_cases {s t : State} (h : step s = .next t) :
    (s.inputs = [] ∧ t = s) ∨
      (∃ rest, s.inputs = .reset :: rest ∧ applyReset (s.withInputs rest) = .next t) ∨
      (∃ c rest i, s.inputs = .command c :: rest ∧ decode s.params c.op c.ports = .ok i ∧
        exec i (s.withInputs rest) = .next t) ∨
      ∃ c rest, s.inputs = .command c :: rest ∧ raise .errIllegal (s.withInputs rest) = .next t := by
  match hin : s.inputs with
  | [] =>
    rw [idleUnitsKeepTheirState s hin] at h
    cases h
    exact .inl ⟨rfl, rfl⟩
  | .reset :: rest => exact .inr (.inl ⟨rest, rfl, step_reset hin ▸ h⟩)
  | .command c :: rest =>
    rcases decode_cases s.params c.op c.ports with ⟨i, hi⟩ | he
    · exact .inr (.inr (.inl ⟨c, rest, i, rfl, hi, step_operation hin hi ▸ h⟩))
    · exact .inr (.inr (.inr ⟨c, rest, rfl, step_reserved hin he ▸ h⟩))

/-- Settles O2: the decoder rejects every reserved opcode, and the step refuses what the decoder rejects. -/
theorem reservedOpcodesAreAnsweredIllegal : Obligations.ReservedOpcodesAreAnsweredIllegal :=
  fun _ _ q _ hin hop => step_reserved hin (decode_of_reserved hop q)

/-- Settles O5: `step_operation`, in which taking the command is `State.withInputs`. -/
theorem stepRunsTheDecodedOperation : Obligations.StepRunsTheDecodedOperation :=
  fun _ _ _ _ hin hi => step_operation hin hi

/-- Settles O7: the state that `applyReset` gives. -/
theorem resetUnconfiguresBothUnits : Obligations.ResetUnconfiguresBothUnits :=
  fun _ _ hin => ⟨_, step_reset hin, rfl, rfl, rfl, rfl, rfl⟩

/-- Settles O8: by the kind of the oldest input; an operation is answered by `exec_answered`, a reserved opcode by
its refusal. -/
theorem everyInputIsAnswered : Obligations.EveryInputIsAnswered := by
  intro s
  match hin : s.inputs with
  | [] => exact ⟨s, idleUnitsKeepTheirState s hin, hin, rfl, fun _ _ hc => by simp at hc⟩
  | .reset :: rest => exact ⟨_, step_reset hin, rfl, rfl, fun _ _ hc => by simp at hc⟩
  | .command c :: rest =>
    rcases decode_cases s.params c.op c.ports with ⟨i, hi⟩ | he
    · obtain ⟨t, r, hexec, hr, hinputs, hparams⟩ := exec_answered i (s.withInputs rest)
      exact ⟨t, (step_operation hin hi).trans hexec, hinputs, hparams, fun _ _ _ => ⟨r, hr⟩⟩
    · exact ⟨_, step_reserved hin he, rfl, rfl, fun _ _ _ => ⟨_, rfl⟩⟩

end Sys2Proof.Machine

namespace Sys2Proof.Machine

/-! ### What an operation can do, said once -/

/-- The state with the response ports showing status `OK` and a result. -/
def State.answering (s : State) (r : Result) : State := { s with response := some { status := .ok, result := r } }

@[simp] theorem State.answering_params (s : State) (r : Result) : (s.answering r).params = s.params := rfl
@[simp] theorem State.answering_enc (s : State) (r : Result) : (s.answering r).enc = s.enc := rfl
@[simp] theorem State.answering_rm (s : State) (r : Result) : (s.answering r).rm = s.rm := rfl
@[simp] theorem State.answering_inputs (s : State) (r : Result) : (s.answering r).inputs = s.inputs := rfl
@[simp] theorem State.answering_draws (s : State) (r : Result) : (s.answering r).draws = s.draws := rfl
@[simp] theorem State.answering_response (s : State) (r : Result) :
    (s.answering r).response = some { status := .ok, result := r } := rfl

/-- What an operation `i` can do to a state: refuse with nothing but a response, construct a unit, write the
registers of `ENC`, write one column, write the whole store, or answer only. -/
inductive Effect (i : Instr) (s : State) : State → Prop
  /-- An exception (60_exceptions.md R170). -/
  | refused (st : Status) (hst : st ≠ .ok) :
      Effect i s { s with response := some { status := st, result := .none } }
  /-- A construction of `ENC` that passed its checks (40_encoder_ops.md R100). -/
  | encBuilt (cons : List Nat) (gpoly : List (List Nat)) (hi : i = .encConfig cons gpoly)
      (hc : s.enc.configured = false) (hcause : configCause s.params cons gpoly = none) :
      Effect i s ((s.withEnc (EncUnit.construct s.params cons gpoly)).answering .none)
  /-- New registers, which fit when the operands do (R103, R106, R108). -/
  | encWritten (hc : s.enc.configured = true) (f : Nat → Nat) (r : Result)
      (hfits : s.params.wf → i.wf s.params = true → ∀ j, j < s.params.k → f j < 2 ^ s.params.wR) :
      Effect i s ((s.withEnc (s.enc.writeRegs s.params.k f)).answering r)
  /-- A construction of `RM` within the capacity (41_matrix_write_ops.md R120). -/
  | rmBuilt (log2 len : Nat) (hi : i = .rmConfig log2 len) (hc : s.rm.configured = false)
      (hcap : exceedsCapacity s.params.rmCap log2 len = false) :
      Effect i s ((s.withRm (RmUnit.construct log2 len)).answering .none)
  /-- A sequential insertion (R122, R124). -/
  | rmInserted (hc : s.rm.configured = true) (hi : isInsertion s.rm.nbSymbols i = true) (vals : List Val)
      (hlen : vals.length = s.rm.nbSymbols) (hadm : suppliesAdmitted i = true → vals.all Val.admitted = true) :
      Effect i s ((s.withRm (s.rm.appendColumn vals)).answering .none)
  /-- An indexed write (R123, R125). -/
  | rmOverwritten (hc : s.rm.configured = true) (p : Nat) (vals : List Val)
      (hlen : vals.length = s.rm.nbSymbols) (hadm : suppliesAdmitted i = true → vals.all Val.admitted = true) :
      Effect i s ((s.withRm (s.rm.writeColumn p vals)).answering .none)
  /-- A pass over the whole store, in which an admitted store stays one (42_matrix_transform_ops.md R140, R143). -/
  | rmRewritten (hc : s.rm.configured = true) (f : Nat → Val) (n : Nat)
      (hadm : Memory.allAdmitted s.rm.matrix = true → ∀ a, Val.admitted (f a) = true) :
      Effect i s (((s.withRm { s.rm with matrix := Memory.tabulate s.rm.size f }).drawn n).answering .none)
  /-- A read: nothing but the answer, and the free values it may take. -/
  | answered (r : Result) (n : Nat) : Effect i s ((s.drawn n).answering r)

/-- The outcome is a next state that the operation can reach. -/
def HasEffect (i : Instr) (s : State) (o : Host.Outcome State Fault Refusal) : Prop :=
  ∃ t, o = .next t ∧ Effect i s t

theorem hasEffect_raise {st : Status} (hst : st ≠ .ok) (i : Instr) (s : State) : HasEffect i s (raise st s) :=
  ⟨_, rfl, .refused st hst⟩

theorem hasEffect_whenEnc {i : Instr} {s : State} {run : Host.Outcome State Fault Refusal}
    (h : s.enc.configured = true → HasEffect i s run) : HasEffect i s (whenEncConfigured s run) := by
  unfold whenEncConfigured
  split
  · exact h ‹_›
  · exact hasEffect_raise (by decide) i s

theorem hasEffect_whenRm {i : Instr} {s : State} {run : Host.Outcome State Fault Refusal}
    (h : s.rm.configured = true → HasEffect i s run) : HasEffect i s (whenRmConfigured s run) := by
  unfold whenRmConfigured
  split
  · exact h ‹_›
  · exact hasEffect_raise (by decide) i s

theorem hasEffect_whenShaped {i : Instr} {s : State} {c : Prop} [Decidable c]
    {run : Host.Outcome State Fault Refusal} (h : c → HasEffect i s run) :
    HasEffect i s (whenShaped (decide c) s run) := by
  unfold whenShaped
  split
  · exact h (of_decide_eq_true ‹_›)
  · exact hasEffect_raise (by decide) i s

theorem hasEffect_read (i : Instr) (s : State) (r : Result) : HasEffect i s (respond r s) := ⟨_, rfl, .answered r 0⟩

theorem all_admitted_replicate_vzero (n : Nat) : (List.replicate n vzero).all Val.admitted = true := by
  simp

/-- On an admitted store normalisation computes admitted entries. -/
theorem RmUnit.normalizedEntry_admitted {u : RmUnit} (h : Memory.allAdmitted u.matrix = true) (f : Numeric)
    (p c : Nat) : Val.admitted (u.normalizedEntry f p c) = true := by
  unfold RmUnit.normalizedEntry
  split
  · exact RmUnit.admitted_entry h p c
  · exact vdiv_admitted f (RmUnit.admitted_entry h p c) (RmUnit.columnSum_admitted h f p)

/-- Whatever the operation, its effect is one of those. -/
theorem exec_hasEffect (i : Instr) (s : State) : HasEffect i s (exec i s) := by
  cases i with
  | encConfig cons gpoly =>
    simp only [exec, execEncConfig]
    split
    · exact hasEffect_raise (by decide) _ s
    · split
      · exact hasEffect_raise (by simp) _ s
      · exact ⟨_, rfl, .encBuilt cons gpoly rfl (Bool.eq_false_iff.2 ‹_›) ‹_›⟩
  | encEncode sym flag =>
    exact hasEffect_whenEnc fun hc => ⟨_, rfl, .encWritten hc _ _ fun hp _ _ _ => insertBit_lt hp.2.1 _ _ _⟩
  | encClear =>
    exact hasEffect_whenEnc fun hc => ⟨_, rfl, .encWritten hc _ _ fun _ _ _ _ => Nat.two_pow_pos _⟩
  | encGetRegisters => exact hasEffect_whenEnc fun _ => hasEffect_read _ s _
  | encSetRegisters regs =>
    refine hasEffect_whenEnc fun hc => hasEffect_whenShaped fun hlen => ⟨_, rfl, .encWritten hc _ _ ?_⟩
    intro _ hwf j hj
    rw [List.getD_eq_getElem _ _ (hlen ▸ hj)]
    exact of_decide_eq_true (List.all_eq_true.1 hwf _ (List.getElem_mem _))
  | encInfo => exact hasEffect_whenEnc fun _ => hasEffect_read _ s _
  | rmConfig log2 len =>
    simp only [exec, execRmConfig]
    split
    · exact hasEffect_raise (by decide) _ s
    · split
      · exact hasEffect_raise (by decide) _ s
      · exact ⟨_, rfl, .rmBuilt log2 len rfl (Bool.eq_false_iff.2 ‹_›) (Bool.eq_false_iff.2 ‹_›)⟩
  | rmEnterSymbol vals =>
    exact hasEffect_whenRm fun hc => hasEffect_whenShaped fun hlen =>
      ⟨_, rfl, .rmInserted hc (by simpa [isInsertion] using hlen) vals hlen id⟩
  | rmEnterSymbolAt idx vals =>
    exact hasEffect_whenRm fun hc => hasEffect_whenShaped fun hlen => ⟨_, rfl, .rmOverwritten hc idx vals hlen id⟩
  | rmEnterErasure =>
    exact hasEffect_whenRm fun hc =>
      ⟨_, rfl, .rmInserted hc rfl _ List.length_replicate fun _ => all_admitted_replicate_vzero _⟩
  | rmEnterErasureAt idx =>
    exact hasEffect_whenRm fun hc =>
      ⟨_, rfl, .rmOverwritten hc idx _ List.length_replicate fun _ => all_admitted_replicate_vzero _⟩
  | rmNormalize =>
    refine hasEffect_whenRm fun hc => ?_
    split
    · exact ⟨_, rfl, .rmRewritten hc _ 0 fun ha _ => RmUnit.normalizedEntry_admitted ha _ _ _⟩
    · exact ⟨_, rfl, .rmRewritten hc _ s.rm.size fun ha => absurd ha ‹_›⟩
  | rmDeinterleave =>
    exact hasEffect_whenRm fun hc => ⟨_, rfl, .rmRewritten hc _ 0 fun ha _ => RmUnit.admitted_entry ha _ _⟩
  | rmFindMax =>
    refine hasEffect_whenRm fun _ => ?_
    split
    · exact hasEffect_read _ s _
    · exact ⟨_, rfl, .answered _ 2⟩
  | rmFindMaxInCol idx val =>
    refine hasEffect_whenRm fun _ => ?_
    split
    · exact hasEffect_read _ s _
    · exact ⟨_, rfl, .answered _ 1⟩
  | rmRead idx2 idx =>
    refine hasEffect_whenRm fun _ => ?_
    split
    · exact hasEffect_read _ s _
    · exact ⟨_, rfl, .answered _ 1⟩
  | rmDump => exact hasEffect_whenRm fun _ => hasEffect_read _ s _

theorem exec_effect {i : Instr} {s t : State} (h : exec i s = .next t) : Effect i s t := by
  obtain ⟨u, hu, heffect⟩ := exec_hasEffect i s
  rw [h] at hu
  cases hu
  exact heffect

end Sys2Proof.Machine

namespace Sys2Proof.Machine

/-! ### The invariant (10_state.md, 20_memory.md R50, 60_exceptions.md R176) -/

/-- A pass over the whole store keeps the invariant of `RM`. -/
theorem RmUnit.tabulate_inv {p : Params} {u : RmUnit} (h : RmUnit.Inv p u) (f : Nat → Val) :
    RmUnit.Inv p { u with matrix := Memory.tabulate u.size f } :=
  ⟨Memory.tabulate_wf _ _, fun _ hx => (Memory.mem_tabulate.1 hx).1, h.cursorBound, h.capacity⟩

/-- The masks of a well-formed `ENC.CONFIG` fit in a register. -/
theorem masksFit_of_wf {p : Params} {cons : List Nat} {gpoly : List (List Nat)}
    (h : (Instr.encConfig cons gpoly).wf p = true) : ∀ row ∈ gpoly, ∀ g ∈ row, g < 2 ^ p.wR := by
  simp only [Instr.wf, Bool.and_eq_true, List.all_eq_true] at h
  exact fun row hrow g hg => of_decide_eq_true (h.2 row hrow g hg)

/-- A response with a result has status `OK`. -/
theorem errorsCarryNoResult_answering (r : Result) :
    ∀ a, some (Response.mk .ok r) = some a → a.status ≠ .ok → a.result = .none := by
  rintro a h hne
  cases h
  exact absurd rfl hne

theorem errorsCarryNoResult_refusing (st : Status) :
    ∀ a, some (Response.mk st .none) = some a → a.status ≠ .ok → a.result = .none := by
  rintro a h -
  cases h
  rfl

/-- What a well-formed operation does keeps the invariant. -/
theorem Effect.inv {i : Instr} {s t : State} (hwf : i.wf s.params = true) (h : s.Inv) (he : Effect i s t) :
    t.Inv := by
  obtain ⟨hp, henc, hrm, -⟩ := h
  cases he with
  | refused st _ => exact ⟨hp, henc, hrm, errorsCarryNoResult_refusing st⟩
  | encBuilt cons gpoly hi _ hcause =>
    subst hi
    exact ⟨hp, EncUnit.construct_inv hp hcause (masksFit_of_wf hwf), hrm, errorsCarryNoResult_answering _⟩
  | encWritten _ f r hfits =>
    exact ⟨hp, EncUnit.writeRegs_inv henc (hfits hp hwf), hrm, errorsCarryNoResult_answering _⟩
  | rmBuilt log2 len _ _ hcap => exact ⟨hp, henc, RmUnit.construct_inv hcap, errorsCarryNoResult_answering _⟩
  | rmInserted _ _ vals hlen _ =>
    exact ⟨hp, henc, RmUnit.appendColumn_inv hrm hlen, errorsCarryNoResult_answering _⟩
  | rmOverwritten _ pos vals hlen _ =>
    exact ⟨hp, henc, RmUnit.writeColumn_inv hrm pos hlen, errorsCarryNoResult_answering _⟩
  | rmRewritten _ f n _ => exact ⟨hp, henc, RmUnit.tabulate_inv hrm f, errorsCarryNoResult_answering _⟩
  | answered r n => exact ⟨hp, henc, hrm, errorsCarryNoResult_answering _⟩

theorem State.withInputs_inv {s : State} (h : s.Inv) (rest : List HostInput) : (s.withInputs rest).Inv :=
  ⟨h.parameters, h.encoder, h.matrix, h.errorsCarryNoResult⟩

/-- The two units as reset leaves them, with no response. -/
theorem State.resetUnits_inv {p : Params} (hp : p.wf) (inputs : List HostInput) (n : Nat) :
    State.Inv { params := p, enc := EncUnit.reset p, rm := RmUnit.reset, inputs := inputs, response := none,
                draws := n } :=
  ⟨hp, EncUnit.reset_inv p, RmUnit.reset_inv p, by simp⟩

/-- Settles O9: the invariant of the two units as reset leaves them. -/
theorem resetMeetsTheInvariant : Obligations.ResetMeetsTheInvariant :=
  ⟨fun _ hp => State.resetUnits_inv hp [] 0, State.resetUnits_inv (by decide) [] 0⟩

/-- Settles O10: by the kind of step; an operation that the decoder gives is well-formed, and `Effect.inv` applies
to what it does. -/
theorem stepKeepsTheInvariant : Obligations.StepKeepsTheInvariant := by
  intro s t hinv hstep
  rcases step_cases hstep with ⟨-, rfl⟩ | ⟨rest, -, hreset⟩ | ⟨c, rest, i, -, hdecode, hexec⟩ | ⟨c, rest, -, hraise⟩
  · exact hinv
  · cases hreset
    exact State.resetUnits_inv hinv.parameters rest s.draws
  · exact (exec_effect hexec).inv (s := s.withInputs rest) (decode_wf hdecode) (State.withInputs_inv hinv rest)
  · cases hraise
    exact ⟨hinv.parameters, hinv.encoder, hinv.matrix, errorsCarryNoResult_refusing _⟩

/-! ### Exceptions (60_exceptions.md section 1) -/

/-- What ends with a status other than `OK` is a refusal. -/
theorem Effect.eq_of_error {i : Instr} {s t : State} {r : Response} (he : Effect i s t) (hr : t.response = some r)
    (hne : r.status ≠ .ok) : t = { s with response := some { status := r.status, result := .none } } := by
  cases he <;> cases hr
  case refused => rfl
  all_goals exact absurd rfl hne

theorem causeCode_ne_zero_iff (st : Status) : st.causeCode ≠ 0 ↔ ∃ c, st = .errConfig c := by
  cases st with
  | errConfig c => cases c <;> simp [Status.causeCode, Cause.code]
  | _ => simp [Status.causeCode]

/-- Settles O11: an operation by `Effect.eq_of_error`, a reserved opcode by the refusal that answers it. -/
theorem exceptionsChangeNothing : Obligations.ExceptionsChangeNothing := by
  refine ⟨fun i s t r hexec => (exec_effect hexec).eq_of_error, fun s t c rest r hin hstep hr hne => ?_,
    causeCode_ne_zero_iff⟩
  rcases decode_cases s.params c.op c.ports with ⟨i, hi⟩ | he
  · rw [step_operation hin hi] at hstep
    exact (exec_effect hstep).eq_of_error hr hne
  · rw [step_reserved hin he] at hstep
    cases hstep
    cases hr
    rfl

/-! ### What stays until reset (10_state.md sections 1 and 2) -/

/-- A step that is not reset keeps both units, or has the effect of one operation. -/
theorem step_effect {s t : State} (hnot : s.inputs.head? ≠ some .reset) (h : step s = .next t) :
    (t.enc = s.enc ∧ t.rm = s.rm) ∨ ∃ i rest, Effect i (s.withInputs rest) t := by
  rcases step_cases h with ⟨-, rfl⟩ | ⟨rest, hin, -⟩ | ⟨c, rest, i, -, -, hexec⟩ | ⟨c, rest, -, hraise⟩
  · exact .inl ⟨rfl, rfl⟩
  · simp [hin] at hnot
  · exact .inr ⟨i, rest, exec_effect hexec⟩
  · cases hraise
    exact .inl ⟨rfl, rfl⟩

/-- The encoder `v` has the code definition of `u`; its registers may differ. -/
def EncUnit.SameCode (u v : EncUnit) : Prop := ∃ regs, v = { u with reg := regs }

theorem EncUnit.SameCode.refl (u : EncUnit) : u.SameCode u := ⟨u.reg, rfl⟩

theorem EncUnit.SameCode.trans {u v w : EncUnit} (h1 : u.SameCode v) (h2 : v.SameCode w) : u.SameCode w := by
  obtain ⟨_, rfl⟩ := h1
  obtain ⟨regs, rfl⟩ := h2
  exact ⟨regs, rfl⟩

/-- On a configured encoder an operation changes at most the registers. -/
theorem Effect.sameCode {i : Instr} {s t : State} (hc : s.enc.configured = true) (he : Effect i s t) :
    s.enc.SameCode t.enc := by
  cases he with
  | encBuilt _ _ _ hnot => simp [hc] at hnot
  | encWritten _ f => exact ⟨_, rfl⟩
  | _ => exact .refl _

/-- Settles O12: a step that is not reset runs one operation at most, whose effect on a configured encoder is
`Effect.sameCode`; the second construction is refused by the first check of `ENC.CONFIG`. -/
theorem codeDefinitionIsImmutable : Obligations.CodeDefinitionIsImmutable := by
  refine ⟨fun s t hc hnot hstep => ?_, fun s cons gpoly hc => if_pos hc⟩
  have hcode : s.enc.SameCode t.enc := by
    rcases step_effect hnot hstep with ⟨henc, -⟩ | ⟨i, rest, he⟩
    · exact henc ▸ .refl _
    · exact he.sameCode (s := s.withInputs rest) hc
  obtain ⟨regs, henc⟩ := hcode
  rw [henc]
  exact ⟨hc, rfl, rfl, rfl, rfl⟩

/-- The matrix `v` is `u` at most one operation later: as configured as before, with the same dimensions, and the
cursor at most one further. -/
structure RmUnit.Follows (u v : RmUnit) : Prop where
  configured : v.configured = u.configured
  nbSymbolsLog2 : v.nbSymbolsLog2 = u.nbSymbolsLog2
  messageLength : v.messageLength = u.messageLength
  cursorGrows : u.messageSymbolCount ≤ v.messageSymbolCount
  cursorByOne : v.messageSymbolCount ≤ u.messageSymbolCount + 1

theorem RmUnit.Follows.refl (u : RmUnit) : u.Follows u := ⟨rfl, rfl, rfl, Nat.le_refl _, Nat.le_succ _⟩

theorem RmUnit.Follows.nbSymbols {u v : RmUnit} (h : u.Follows v) : v.nbSymbols = u.nbSymbols := by
  unfold RmUnit.nbSymbols
  rw [h.nbSymbolsLog2]

theorem RmUnit.follows_appendColumn (u : RmUnit) (vals : List Val) : u.Follows (u.appendColumn vals) := by
  have hcursor := u.appendColumn_cursor vals
  refine ⟨by simp, by simp, by simp, ?_, ?_⟩ <;> rw [hcursor] <;> split <;> omega

theorem RmUnit.follows_writeColumn (u : RmUnit) (p : Nat) (vals : List Val) : u.Follows (u.writeColumn p vals) :=
  ⟨by simp, by simp, by simp, by simp, by simp⟩

theorem RmUnit.follows_withMatrix (u : RmUnit) (mem : Memory) : u.Follows { u with matrix := mem } :=
  ⟨rfl, rfl, rfl, Nat.le_refl _, Nat.le_succ _⟩

/-- On a configured matrix an operation keeps the dimensions and moves the cursor by one at most. -/
theorem Effect.follows {i : Instr} {s t : State} (hc : s.rm.configured = true) (he : Effect i s t) :
    s.rm.Follows t.rm := by
  cases he with
  | rmBuilt _ _ _ hnot => simp [hc] at hnot
  | rmInserted _ _ vals => exact s.rm.follows_appendColumn vals
  | rmOverwritten _ p vals => exact s.rm.follows_writeColumn p vals
  | rmRewritten => exact s.rm.follows_withMatrix _
  | _ => exact .refl _

/-- Settles O13: a step that is not reset runs one operation at most, whose effect on a configured matrix is
`Effect.follows`. -/
theorem matrixDimensionsAreImmutable : Obligations.MatrixDimensionsAreImmutable := by
  intro s t hc hnot hstep
  have hfollows : s.rm.Follows t.rm := by
    rcases step_effect hnot hstep with ⟨-, hrm⟩ | ⟨i, rest, he⟩
    · exact hrm ▸ .refl _
    · exact he.follows (s := s.withInputs rest) hc
  obtain ⟨hconf, hlog2, hlen, hgrows, hone⟩ := hfollows
  exact ⟨hconf.trans hc, hlog2, hlen, hgrows, hone⟩

/-! ### The cursor (41_matrix_write_ops.md R126 item 3) -/

/-- On a configured matrix `RM.ENTER_SYMBOL` of `S` values is a sequential insertion. -/
theorem exec_rmEnterSymbol {s : State} (hc : s.rm.configured = true) {vals : List Val}
    (hlen : vals.length = s.rm.nbSymbols) :
    exec (.rmEnterSymbol vals) s = respond .none (s.withRm (s.rm.appendColumn vals)) :=
  (whenRmConfigured_of_configured hc _).trans (whenShaped_of_true (decide_eq_true hlen) s _)

/-- On a configured matrix an accepted insertion appends a column. -/
theorem exec_insertion {i : Instr} {s : State} (hc : s.rm.configured = true)
    (hi : isInsertion s.rm.nbSymbols i = true) :
    ∃ vals, exec i s = respond .none (s.withRm (s.rm.appendColumn vals)) := by
  cases i with
  | rmEnterSymbol vals => exact ⟨vals, exec_rmEnterSymbol hc (of_decide_eq_true hi)⟩
  | rmEnterErasure => exact ⟨_, exec_rmEnterErasure hc⟩
  | _ => simp [isInsertion] at hi

/-- On a configured matrix every other operation keeps the cursor. -/
theorem Effect.cursor_eq {i : Instr} {s t : State} (hc : s.rm.configured = true)
    (hi : isInsertion s.rm.nbSymbols i = false) (he : Effect i s t) :
    t.rm.messageSymbolCount = s.rm.messageSymbolCount := by
  cases he with
  | rmBuilt _ _ _ hnot => simp [hc] at hnot
  | rmInserted _ hins => simp [hi] at hins
  | rmOverwritten _ p vals => simp
  | _ => rfl

/-- The cursor after one operation: at most `L`, one further for an accepted insertion. -/
theorem cursor_after {s : State} (hc : s.rm.configured = true)
    (hle : s.rm.messageSymbolCount ≤ s.rm.messageLength) (i : Instr) :
    (after i s).rm.messageSymbolCount =
      min s.rm.messageLength (s.rm.messageSymbolCount + if isInsertion s.rm.nbSymbols i then 1 else 0) := by
  cases hi : isInsertion s.rm.nbSymbols i with
  | false =>
    rw [(exec_effect (exec_after i s)).cursor_eq hc hi]
    simpa using hle
  | true =>
    obtain ⟨vals, hexec⟩ := exec_insertion hc hi
    rw [after_eq hexec]
    show (s.rm.appendColumn vals).messageSymbolCount = _
    rw [RmUnit.appendColumn_cursor]
    simp only [if_true]
    split <;> omega

/-- The cursor after a run, from any cursor up to `L`. -/
theorem cursor_runOps (l : List Instr) {s : State} (hc : s.rm.configured = true)
    (hle : s.rm.messageSymbolCount ≤ s.rm.messageLength) :
    (runOps l s).rm.messageSymbolCount =
      min s.rm.messageLength (s.rm.messageSymbolCount + l.countP (isInsertion s.rm.nbSymbols)) := by
  induction l generalizing s with
  | nil => simpa [runOps] using hle
  | cons i l ih =>
    have hfollows := (exec_effect (exec_after i s)).follows hc
    have hcursor := cursor_after hc hle i
    rw [runOps, ih (hfollows.configured.trans hc) (by rw [hfollows.messageLength, hcursor]; exact Nat.min_le_left _ _),
      hfollows.messageLength, hfollows.nbSymbols, hcursor, List.countP_cons]
    omega

/-- Settles O39: `cursor_runOps` from cursor 0. -/
theorem cursorCountsInsertions : Obligations.CursorCountsInsertions := by
  intro s l hc hzero
  rw [cursor_runOps l hc (by omega), hzero, Nat.zero_add]

/-! ### Admitted values (41_matrix_write_ops.md R127) -/

/-- A store whose entries come from an admitted store or from admitted values is admitted. -/
theorem Memory.allAdmitted_of_mem {mem mem' : Memory} {vals : List Val} {P : Nat × Val → Prop}
    (hmem : Memory.allAdmitted mem = true) (hvals : vals.all Val.admitted = true)
    (h : ∀ x ∈ mem', x ∈ mem ∨ (P x ∧ x.2 ∈ vals)) : Memory.allAdmitted mem' = true := by
  refine List.all_eq_true.2 fun x hx => ?_
  rcases h x hx with hold | ⟨-, hnew⟩
  · exact List.all_eq_true.1 hmem x hold
  · exact List.all_eq_true.1 hvals x.2 hnew

theorem Memory.tabulate_admitted {f : Nat → Val} (h : ∀ a, Val.admitted (f a) = true) (n : Nat) :
    Memory.allAdmitted (Memory.tabulate n f) = true := by
  refine List.all_eq_true.2 fun x hx => ?_
  rw [(Memory.mem_tabulate.1 hx).2.1]
  exact h x.1

/-- Settles O40: what each effect lists in the store was there, was supplied, or was computed from the store. -/
theorem admittedStoreStaysAdmitted : Obligations.AdmittedStoreStaysAdmitted := by
  intro i s t hsup hadm hexec
  cases exec_effect hexec with
  | rmBuilt => rfl
  | rmInserted _ _ vals hlen hvals =>
    exact Memory.allAdmitted_of_mem hadm (hvals hsup) fun _ => RmUnit.mem_appendColumn hlen
  | rmOverwritten _ p vals hlen hvals =>
    exact Memory.allAdmitted_of_mem hadm (hvals hsup) fun _ => RmUnit.mem_writeColumn hlen
  | rmRewritten _ f _ hf => exact Memory.tabulate_admitted (hf hadm) _
  | _ => exact hadm

end Sys2Proof.Machine

namespace Sys2Proof.Machine

/-! ### Unconfigured units (10_state.md, 60_exceptions.md R173) -/

/-- Settles O17: the first check of every operation but `CONFIG` is that its unit is configured. -/
theorem unconfiguredUnitsRefuse : Obligations.UnconfiguredUnitsRefuse := by
  rintro i s hi (⟨hu, hc⟩ | ⟨hu, hc⟩)
  · cases i with
    | encConfig => simp [Instr.isConfig] at hi
    | encEncode | encClear | encGetRegisters | encSetRegisters | encInfo =>
      exact whenEncConfigured_of_unconfigured hc _
    | _ => simp [Instr.unit] at hu
  · cases i with
    | rmConfig => simp [Instr.isConfig] at hi
    | rmEnterSymbol | rmEnterSymbolAt | rmEnterErasure | rmEnterErasureAt | rmNormalize | rmDeinterleave | rmFindMax
    | rmFindMaxInCol | rmRead | rmDump => exact whenRmConfigured_of_unconfigured hc _
    | _ => simp [Instr.unit] at hu

/-- `ENC.CONFIG` on an unconfigured encoder, when a check fails. -/
theorem exec_encConfig_refused {s : State} (hc : s.enc.configured = false) {cons : List Nat}
    {gpoly : List (List Nat)} {c : Cause} (hcause : configCause s.params cons gpoly = some c) :
    exec (.encConfig cons gpoly) s = raise (.errConfig c) s := by
  show execEncConfig cons gpoly s = _
  simp [execEncConfig, hc, hcause]

/-- `ENC.CONFIG` on an unconfigured encoder, when all checks pass. -/
theorem exec_encConfig_built {s : State} (hc : s.enc.configured = false) {cons : List Nat}
    {gpoly : List (List Nat)} (hcause : configCause s.params cons gpoly = none) :
    exec (.encConfig cons gpoly) s = respond .none (s.withEnc (EncUnit.construct s.params cons gpoly)) := by
  show execEncConfig cons gpoly s = _
  simp [execEncConfig, hc, hcause]

/-- `RM.CONFIG` on an unconfigured matrix, above the capacity. -/
theorem exec_rmConfig_refused {s : State} (hc : s.rm.configured = false) {log2 len : Nat}
    (hcap : exceedsCapacity s.params.rmCap log2 len = true) :
    exec (.rmConfig log2 len) s = raise .errCapacity s := by
  show execRmConfig log2 len s = _
  simp [execRmConfig, hc, hcap]

/-- `RM.CONFIG` on an unconfigured matrix, within the capacity. -/
theorem exec_rmConfig_built {s : State} (hc : s.rm.configured = false) {log2 len : Nat}
    (hcap : exceedsCapacity s.params.rmCap log2 len = false) :
    exec (.rmConfig log2 len) s = respond .none (s.withRm (RmUnit.construct log2 len)) := by
  show execRmConfig log2 len s = _
  simp [execRmConfig, hc, hcap]

/-- An operation of `ENC` does not observe what an unconfigured encoder holds. -/
theorem exec_enc_unobserved {i : Instr} (hi : i.unit = .enc) {s : State} (hs : s.enc.configured = false)
    {u : EncUnit} (hu : u.configured = false) :
    ∃ t, exec i s = .next t ∧
      (exec i (s.withEnc u) = .next t ∨ (t.enc = s.enc ∧ exec i (s.withEnc u) = .next (t.withEnc u))) := by
  cases hconfig : i.isConfig with
  | false =>
    exact ⟨_, unconfiguredUnitsRefuse i s hconfig (.inl ⟨hi, hs⟩),
      .inr ⟨rfl, unconfiguredUnitsRefuse i (s.withEnc u) hconfig (.inl ⟨hi, hu⟩)⟩⟩
  | true =>
    cases i with
    | encConfig cons gpoly =>
      cases hcause : configCause s.params cons gpoly with
      | none => exact ⟨_, exec_encConfig_built hs hcause, .inl (exec_encConfig_built (s := s.withEnc u) hu hcause)⟩
      | some c =>
        exact ⟨_, exec_encConfig_refused hs hcause,
          .inr ⟨rfl, exec_encConfig_refused (s := s.withEnc u) hu hcause⟩⟩
    | rmConfig => simp [Instr.unit] at hi
    | _ => simp [Instr.isConfig] at hconfig

/-- An operation of `RM` does not observe what an unconfigured matrix holds. -/
theorem exec_rm_unobserved {i : Instr} (hi : i.unit = .rm) {s : State} (hs : s.rm.configured = false)
    {u : RmUnit} (hu : u.configured = false) :
    ∃ t, exec i s = .next t ∧
      (exec i (s.withRm u) = .next t ∨ (t.rm = s.rm ∧ exec i (s.withRm u) = .next (t.withRm u))) := by
  cases hconfig : i.isConfig with
  | false =>
    exact ⟨_, unconfiguredUnitsRefuse i s hconfig (.inr ⟨hi, hs⟩),
      .inr ⟨rfl, unconfiguredUnitsRefuse i (s.withRm u) hconfig (.inr ⟨hi, hu⟩)⟩⟩
  | true =>
    cases i with
    | rmConfig log2 len =>
      cases hcap : exceedsCapacity s.params.rmCap log2 len with
      | false => exact ⟨_, exec_rmConfig_built hs hcap, .inl (exec_rmConfig_built (s := s.withRm u) hu hcap)⟩
      | true =>
        exact ⟨_, exec_rmConfig_refused hs hcap, .inr ⟨rfl, exec_rmConfig_refused (s := s.withRm u) hu hcap⟩⟩
    | encConfig => simp [Instr.unit] at hi
    | _ => simp [Instr.isConfig] at hconfig

/-- Settles O16: the unit's own operations by `exec_enc_unobserved` and `exec_rm_unobserved`; those of the other
unit neither read nor write it, by the independence of the units. -/
theorem contentsBeforeConfigAreUnobservable : Obligations.ContentsBeforeConfigAreUnobservable := by
  intro i s
  obtain ⟨henc, hrm⟩ := unitsAreIndependent i s
  constructor
  · intro u hs hu
    cases hi : i.unit with
    | enc => exact exec_enc_unobserved hi hs hu
    | rm =>
      obtain ⟨v, r, n, hexec, hread⟩ := hrm hi
      exact ⟨_, hexec, .inr ⟨rfl, hread u⟩⟩
  · intro u hs hu
    cases hi : i.unit with
    | enc =>
      obtain ⟨v, r, hexec, hread⟩ := henc hi
      exact ⟨_, hexec, .inr ⟨rfl, hread u s.draws⟩⟩
    | rm => exact exec_rm_unobserved hi hs hu

/-! ### Interleaving (20_memory.md section 3) -/

/-- The state with another response. -/
def State.withResponse (s : State) (r : Option Response) : State := { s with response := r }

/-- No operation reads the response ports. -/
theorem exec_withResponse (i : Instr) (s : State) (r : Option Response) :
    exec i (s.withResponse r) = exec i s := by
  cases i <;> rfl

/-- Two states alike for one unit, with the same inputs to come. -/
def Alike (u : UnitId) (s t : State) : Prop := sameFor u s t ∧ t.inputs = s.inputs

theorem Alike.refl (u : UnitId) (s : State) : Alike u s s := by
  cases u
  · exact ⟨⟨rfl, rfl⟩, rfl⟩
  · exact ⟨⟨rfl, rfl, rfl⟩, rfl⟩

/-- States alike for `ENC` differ in `RM`, the count of free values and the response at most. -/
theorem Alike.eq_enc {s t : State} (h : Alike .enc s t) :
    t = (s.withRmDraws t.rm t.draws).withResponse t.response := by
  obtain ⟨⟨hp, he⟩, hi⟩ := h
  cases s; cases t
  cases hp; cases he; cases hi
  rfl

/-- States alike for `RM` differ in `ENC` and the response at most. -/
theorem Alike.eq_rm {s t : State} (h : Alike .rm s t) : t = (s.withEnc t.enc).withResponse t.response := by
  obtain ⟨⟨hp, hr, hd⟩, hi⟩ := h
  cases s; cases t
  cases hp; cases hr; cases hd; cases hi
  rfl

/-- An operation of the unit does the same, and answers the same, in states alike for it. -/
theorem Alike.after_own {u : UnitId} {i : Instr} (hi : i.unit = u) {s t : State} (h : Alike u s t) :
    Alike u (after i s) (after i t) ∧ (after i s).response = (after i t).response := by
  cases u with
  | enc =>
    have hafter : after i t = (after i s).withRmDraws t.rm t.draws := by
      apply after_eq
      rw [h.eq_enc, exec_withResponse, exec_withRmDraws hi, exec_after i s]
      rfl
    rw [hafter]
    exact ⟨⟨⟨rfl, rfl⟩, rfl⟩, rfl⟩
  | rm =>
    have hafter : after i t = (after i s).withEnc t.enc := by
      apply after_eq
      rw [h.eq_rm, exec_withResponse, exec_withEnc hi, exec_after i s]
      rfl
    rw [hafter]
    exact ⟨⟨⟨rfl, rfl, rfl⟩, rfl⟩, rfl⟩

/-- An operation of the other unit is not seen by the unit. -/
theorem Alike.after_other {u : UnitId} {i : Instr} (hi : i.unit ≠ u) {s t : State} (h : Alike u s t) :
    Alike u (after i s) t := by
  cases u with
  | enc =>
    obtain ⟨v, r, n, hexec⟩ := exec_rmOnly (by cases hu : i.unit <;> simp_all) s
    rw [after_eq hexec]
    exact h
  | rm =>
    obtain ⟨v, r, hexec⟩ := exec_encOnly (by cases hu : i.unit <;> simp_all) s
    rw [after_eq hexec]
    exact h

/-- For one unit a run is the run of the unit's own operations. -/
theorem Alike.run_filter {u : UnitId} (l : List Instr) {s t : State} (h : Alike u s t) :
    Alike u (runOps l s) (runOps (l.filter fun i => decide (i.unit = u)) t) ∧
      responsesOf u l s = responsesOf u (l.filter fun i => decide (i.unit = u)) t := by
  induction l generalizing s t with
  | nil => exact ⟨h, rfl⟩
  | cons i l ih =>
    by_cases hi : i.unit = u
    · obtain ⟨hafter, hresponse⟩ := h.after_own hi
      obtain ⟨hrun, hresponses⟩ := ih hafter
      rw [List.filter_cons_of_pos (by simpa using hi)]
      refine ⟨hrun, ?_⟩
      simp only [responsesOf, if_pos hi, hresponse, hresponses]
    · obtain ⟨hrun, hresponses⟩ := ih (h.after_other hi)
      rw [List.filter_cons_of_neg (by simpa using hi)]
      refine ⟨hrun, ?_⟩
      simp only [responsesOf, if_neg hi, hresponses]

theorem sameFor_of_alike {u : UnitId} {s t c : State} (hs : Alike u s c) (ht : Alike u t c) : sameFor u s t := by
  cases u with
  | enc =>
    obtain ⟨⟨hp, he⟩, -⟩ := hs
    obtain ⟨⟨hp', he'⟩, -⟩ := ht
    exact ⟨hp'.symm.trans hp, he'.symm.trans he⟩
  | rm =>
    obtain ⟨⟨hp, hr, hd⟩, -⟩ := hs
    obtain ⟨⟨hp', hr', hd'⟩, -⟩ := ht
    exact ⟨hp'.symm.trans hp, hr'.symm.trans hr, hd'.symm.trans hd⟩

/-- Two runs with the same operations of a unit are the same for it. -/
theorem run_congr {u : UnitId} {l1 l2 : List Instr}
    (h : l1.filter (fun i => decide (i.unit = u)) = l2.filter (fun i => decide (i.unit = u))) (s : State) :
    sameFor u (runOps l1 s) (runOps l2 s) ∧ responsesOf u l1 s = responsesOf u l2 s := by
  obtain ⟨hrun1, hresponses1⟩ := (Alike.refl u s).run_filter l1
  obtain ⟨hrun2, hresponses2⟩ := (Alike.refl u s).run_filter l2
  rw [h] at hrun1 hresponses1
  exact ⟨sameFor_of_alike hrun1 hrun2, hresponses1.trans hresponses2.symm⟩

/-- Settles O15: `run_congr` for each of the two units. -/
theorem interleavingIsUnobservable : Obligations.InterleavingIsUnobservable := by
  intro l1 l2 s henc hrm
  obtain ⟨hsameEnc, hresponsesEnc⟩ := run_congr henc s
  obtain ⟨hsameRm, hresponsesRm⟩ := run_congr hrm s
  exact ⟨hsameEnc, hsameRm, hresponsesEnc, hresponsesRm⟩

end Sys2Proof.Machine

namespace Sys2Proof.Machine

/-! ### The integer primitives (00_scope.md section 5) -/

/-- `popcount` counts the 1 bits below the width. -/
theorem popcount_eq_length_filter (w a : Nat) :
    popcount w a = ((List.range w).filter (fun b => a.testBit b)).length := by
  induction w with
  | zero => rfl
  | succ w ih =>
    rw [List.range_succ, List.filter_append, List.length_append, ← ih, popcount]
    cases h : a.testBit w <;> simp [h]

/-- Settles O20: the shifts by their bit-vector equations, the counts by `popcount_eq_length_filter`, the reversal
bit by bit, and the logarithm by its least-exponent characterisation. -/
theorem integerPrimitivesAreTheSpecs : Obligations.IntegerPrimitivesAreTheSpecs := by
  refine ⟨fun w a n h => ⟨shiftLeft_eq_bitvec w a n, shiftRight_eq_bitvec h n⟩,
    fun w a => ⟨popcount_eq_length_filter w a, rfl⟩, fun i w => ⟨bitrev_lt i w, fun b hb => ?_⟩, clog2_le_iff⟩
  rw [testBit_bitrev, decide_eq_true hb, Bool.true_and]

/-! ### `ENC.CONFIG` (40_encoder_ops.md R100, R101) -/

theorem lt_minLength_iff {rows : List (List Nat)} (hne : rows ≠ []) (k : Nat) :
    k < minLength rows ↔ ∀ row ∈ rows, k < row.length := by
  constructor
  · exact fun h row hrow => Nat.lt_of_lt_of_le h (minLength_le hrow)
  · intro h
    obtain ⟨row, hrow, hlen⟩ := minLength_attained hne
    exact hlen ▸ h row hrow

/-- Settles O22: the hypotheses are what `configCause_eq_none` asks for; the least length and the greatest
constraint are attained because there is a row, so `K` is not zero. -/
theorem encConfigBuildsTheCode : Obligations.EncConfigBuildsTheCode := by
  rintro s cons gpoly hc hcons hks hgpoly hfit habove ⟨row, hrow, hrowlen⟩
  have hgne : gpoly ≠ [] := List.ne_nil_of_mem hrow
  have hcne : cons ≠ [] := by
    rw [← List.length_pos_iff, hcons, ← hgpoly]
    exact List.length_pos_iff.2 hgne
  have hcause : configCause s.params cons gpoly = none :=
    configCause_eq_none.2 ⟨hcons, hks, hgpoly, hfit, (lt_minLength_iff hgne _).2 habove,
      (minLength_le hrow).trans hrowlen⟩
  exact ⟨minLength gpoly, maxOf cons, exec_encConfig_built hc hcause, fun _ => minLength_le,
    minLength_attained hgne, fun _ => le_maxOf, maxOf_mem hcne⟩

/-- Settles O23: each clause gives the outcome of every check of `configCause` up to the one that is reported; the
two checks on the number of outputs compare the least row length, which a row attains. -/
theorem encConfigReportsTheFirstFailingCheck : Obligations.EncConfigReportsTheFirstFailingCheck := by
  intro s cons gpoly hp hc
  have refuses : ∀ {c}, configCause s.params cons gpoly = some c → refusesConfig s cons gpoly c :=
    exec_encConfig_refused hc
  refine ⟨fun hcons => refuses ?constraints, fun hcons => ⟨fun hwide => refuses ?inputs, fun hwide =>
    ⟨fun hrows => refuses ?generators, fun hrows => ⟨fun hbig => refuses ?register, fun hfit =>
      ⟨fun hfew => refuses ?few, fun hmany => refuses ?many⟩⟩⟩⟩⟩
  case constraints => simp [configCause, hcons]
  case inputs => simp [configCause, hcons, hwide]
  case generators => simp [configCause, hcons, Nat.not_lt.2 hwide, hrows]
  case register => simp [configCause, hcons, Nat.not_lt.2 hwide, hrows, hbig]
  all_goals have hbig : ¬ ∃ c ∈ cons, s.params.wR < c := fun ⟨c, hmem, hlt⟩ => Nat.not_lt.2 (hfit c hmem) hlt
  case few =>
    obtain ⟨row, hrow, hlen⟩ := hfew
    simp [configCause, hcons, Nat.not_lt.2 hwide, hrows, hbig, (minLength_le hrow).trans hlen]
  case many =>
    have hne : gpoly ≠ [] := List.ne_nil_of_length_pos (hrows ▸ hp.1)
    have hmin := (lt_minLength_iff hne _).2 hmany
    simp [configCause, hcons, Nat.not_lt.2 hwide, hrows, hbig, hmin, Nat.lt_of_le_of_lt hwide hmin]

/-! ### `ENC.ENCODE` (40_encoder_ops.md R102 to R105) -/

/-- On a configured encoder `ENC.ENCODE` shifts the symbol in and answers from the updated registers. -/
theorem exec_encEncode {s : State} (hc : s.enc.configured = true) (sym : Nat) (flag : Bool) :
    exec (.encEncode sym flag) s =
      respond (.symbol ((s.enc.shiftIn s.params sym flag).outputSymbol s.params))
        (s.withEnc (s.enc.shiftIn s.params sym flag)) :=
  whenEncConfigured_of_configured hc _

/-- The population count of a register ANDed with a mask is the number of 1 bits that both have. -/
theorem popcount_and (w a b : Nat) :
    popcount w (a &&& b) = ∑ i ∈ Finset.range w, if a.testBit i && b.testBit i then 1 else 0 := by
  simp only [popcount_eq_sum, Nat.testBit_and]

/-- Settles O24: the registers by `testBit_insertBit`, the output bits by `EncUnit.outputBit_eq`, whose population
counts are sums of common 1 bits. -/
theorem encodeUpdatesRegistersAndOutput : Obligations.EncodeUpdatesRegistersAndOutput := by
  intro s sym flag hc hw
  refine ⟨(s.enc.shiftIn s.params sym flag).reg, _, exec_encEncode hc sym flag, ?count, fun j hj => ?registers,
    fun i hi => ?output, fun i hi => ?above⟩
  case count => simp [EncUnit.shiftIn]
  case registers =>
    have hreg : (s.enc.shiftIn s.params sym flag).reg.getD j 0 = _ := s.enc.readReg_shiftIn s.params sym flag hj
    rw [hreg]
    refine ⟨insertBit_lt hw _ _ _, fun b hb => ?_⟩
    rw [testBit_insertBit hw, decide_eq_true hb, Bool.true_and]
    rfl
  case output =>
    rw [EncUnit.testBit_outputSymbol, EncUnit.outputBit_eq, EncUnit.shiftIn_n, decide_eq_true hi, Bool.true_and]
    simp only [popcount_and]
    rfl
  case above =>
    rw [EncUnit.testBit_outputSymbol, EncUnit.shiftIn_n, decide_eq_false (Nat.not_lt.2 hi), Bool.false_and]

/-- A replace after an insertion leaves the registers of the last symbol alone. -/
theorem EncUnit.shiftIn_replace {p : Params} (hw : 1 ≤ p.wR) (u : EncUnit) (a b : Nat) (flag : Bool) :
    (u.shiftIn p a flag).shiftIn p b true = u.shiftIn p b flag := by
  have hregs : ∀ j ∈ List.range p.k,
      insertBit p.wR true (symbolBit b j) ((u.shiftIn p a flag).readReg j) =
        insertBit p.wR flag (symbolBit b j) (u.readReg j) := by
    intro j hj
    rw [u.readReg_shiftIn p a flag (List.mem_range.1 hj), insertBit_replace hw]
  show { u with reg := _ } = ({ u with reg := _ } : EncUnit)
  rw [List.map_congr_left hregs]

/-- Settles O25: both sides insert the last symbol, into registers that `EncUnit.shiftIn_replace` makes equal. -/
theorem replaceOverwritesTheLastSymbol : Obligations.ReplaceOverwritesTheLastSymbol := by
  intro s t a b flag hw hc ht
  rw [exec_encEncode hc] at ht
  cases ht
  rw [exec_encEncode (by exact hc), exec_encEncode hc]
  show respond (.symbol (((s.enc.shiftIn s.params a flag).shiftIn s.params b true).outputSymbol s.params))
    (s.withEnc ((s.enc.shiftIn s.params a flag).shiftIn s.params b true)) = _
  rw [EncUnit.shiftIn_replace hw]

/-- Settles O26: every register and every output bit is computed from what the two states agree on. -/
theorem encodeIsPure : Obligations.EncodeIsPure := by
  intro s t a b flag hs ht hk hw hn hreg hmask hsym
  have hregs : (s.enc.shiftIn s.params a flag).reg = (t.enc.shiftIn t.params b flag).reg := by
    show (List.range s.params.k).map _ = (List.range t.params.k).map _
    rw [← hk, ← hw]
    refine List.map_congr_left fun j hj => ?_
    have hj := List.mem_range.1 hj
    show insertBit _ _ (a.testBit j) (s.enc.reg.getD j 0) = insertBit _ _ (b.testBit j) (t.enc.reg.getD j 0)
    rw [hsym j hj, hreg j hj]
  have hsymbol : (s.enc.shiftIn s.params a flag).outputSymbol s.params =
      (t.enc.shiftIn t.params b flag).outputSymbol t.params := by
    unfold EncUnit.outputSymbol
    rw [EncUnit.shiftIn_n, EncUnit.shiftIn_n, ← hn, ← hk, ← hw]
    refine ofBits_congr fun i hi => EncUnit.outputBit_congr _ _ fun j hj => ?_
    have hmaskj : s.enc.mask j i = t.enc.mask j i := hmask j hj i hi
    rw [EncUnit.mask_shiftIn, EncUnit.mask_shiftIn, hmaskj]
    unfold EncUnit.readReg
    rw [hregs]
  exact ⟨_, _, exec_encEncode hs a flag, exec_encEncode ht b flag,
    congrArg (fun o => some (Response.mk .ok (.symbol o))) hsymbol, hregs⟩

/-- The encoder with other registers. -/
def EncUnit.withReg (u : EncUnit) (regs : List Nat) : EncUnit := { u with reg := regs }

section
variable {p : Params} (hw : 1 ≤ p.wR) (u : EncUnit) {x y z : List Nat} (a b : Nat) (flag : Bool)
  (hz : ∀ j, j < p.k → z.getD j 0 = x.getD j 0 ^^^ y.getD j 0)
include hw hz

/-- The register update is linear over GF(2). -/
theorem EncUnit.readReg_shiftIn_xor {j : Nat} (hj : j < p.k) :
    ((u.withReg z).shiftIn p (a ^^^ b) flag).readReg j =
      ((u.withReg x).shiftIn p a flag).readReg j ^^^ ((u.withReg y).shiftIn p b flag).readReg j := by
  rw [EncUnit.readReg_shiftIn _ _ _ _ hj, EncUnit.readReg_shiftIn _ _ _ _ hj, EncUnit.readReg_shiftIn _ _ _ _ hj,
    ← insertBit_xor hw, symbolBit, Nat.testBit_xor]
  exact congrArg _ (hz j hj)

/-- The output symbol is linear over GF(2). -/
theorem EncUnit.outputSymbol_shiftIn_xor :
    ((u.withReg z).shiftIn p (a ^^^ b) flag).outputSymbol p =
      ((u.withReg x).shiftIn p a flag).outputSymbol p ^^^ ((u.withReg y).shiftIn p b flag).outputSymbol p := by
  refine Nat.eq_of_testBit_eq fun i => ?_
  have hbit := EncUnit.outputBit_xor p.wR i (fun _ => u.readReg_shiftIn_xor hw a b flag hz)
    (fun _ _ => rfl) (fun _ _ => rfl)
  rw [Nat.testBit_xor, EncUnit.testBit_outputSymbol, EncUnit.testBit_outputSymbol, EncUnit.testBit_outputSymbol, hbit]
  exact Bool.and_xor_distrib_left _ _ _

end

/-- Settles O27: the three runs complete, and their registers and outputs are linear in registers and symbols. -/
theorem encodeIsLinear : Obligations.EncodeIsLinear := by
  intro s x y z a b flag hc hw hz
  have hrun : ∀ regs sym, exec (.encEncode sym flag) (s.withEnc (s.enc.withReg regs)) = _ :=
    fun regs sym => exec_encEncode (s := s.withEnc (s.enc.withReg regs)) hc sym flag
  refine ⟨_, _, _, _, _, hrun x a, hrun y b, hrun z (a ^^^ b), rfl, rfl, ?_,
    fun j hj => s.enc.readReg_shiftIn_xor hw a b flag hz hj⟩
  exact congrArg (fun o => some (Response.mk .ok (.symbol o))) (s.enc.outputSymbol_shiftIn_xor hw a b flag hz)

/-! ### Registers and read-out (40_encoder_ops.md R107 to R109) -/

/-- Writing `K` registers from a list of `K` values puts the list in their place. -/
theorem EncUnit.writeRegs_getD (u : EncUnit) {k : Nat} {regs : List Nat} (h : regs.length = k) :
    u.writeRegs k (fun j => regs.getD j 0) = { u with reg := regs } := by
  subst h
  show { u with reg := _ } = _
  rw [map_range_getD]

/-- Settles O30: the shape check passes, and the registers are written from the list. -/
theorem setRegistersReplacesTheRegisters : Obligations.SetRegistersReplacesTheRegisters := by
  intro s regs hc hlen
  show execEncSetRegisters regs s = _
  unfold execEncSetRegisters
  rw [whenEncConfigured_of_configured hc, whenShaped_of_true (decide_eq_true hlen), EncUnit.writeRegs_getD _ hlen]
  rfl

/-- Settles O32: the read-out of a configured encoder. -/
theorem infoReadsTheCodeDefinition : Obligations.InfoReadsTheCodeDefinition :=
  fun _ hc => whenEncConfigured_of_configured hc _

@[simp] theorem runOps_params (l : List Instr) (s : State) : (runOps l s).params = s.params := by
  induction l generalizing s with
  | nil => rfl
  | cons i l ih => rw [runOps, ih, after_params]

/-- On a configured encoder a run changes at most the registers. -/
theorem sameCode_runOps (l : List Instr) {s : State} (hc : s.enc.configured = true) :
    s.enc.SameCode (runOps l s).enc := by
  induction l generalizing s with
  | nil => exact .refl _
  | cons i l ih =>
    have hcode := (exec_effect (exec_after i s)).sameCode hc
    refine hcode.trans (ih ?_)
    obtain ⟨regs, henc⟩ := hcode
    rw [henc]
    exact hc

/-- Settles O31: the snapshot is the register list, and the run kept all the rest of the encoder. -/
theorem snapshotRestoresTheEncoder : Obligations.SnapshotRestoresTheEncoder := by
  intro s l hinv hc
  have hsnapshot : s.enc.readRegs s.params.k = s.enc.reg := EncUnit.readRegs_eq hinv.encoder.registerCount
  obtain ⟨regs, hrun⟩ := sameCode_runOps l (s := s.answering (.registers s.enc.reg)) hc
  have hget : exec .encGetRegisters s = .next (s.answering (.registers s.enc.reg)) := by
    rw [exec_encGetRegisters hc, hsnapshot]
    rfl
  have hset := setRegistersReplacesTheRegisters (runOps l (s.answering (.registers s.enc.reg))) s.enc.reg
    (by rw [hrun]; exact hc) (by rw [runOps_params]; exact hinv.encoder.registerCount)
  rw [hrun] at hset
  refine ⟨_, _, _, s.enc.reg, hget, rfl, hset, rfl, exec_encGetRegisters hc, ?_⟩
  show some (Response.mk .ok (.registers (s.enc.readRegs (runOps l _).params.k))) = _
  rw [runOps_params, State.answering_params, hsnapshot]

end Sys2Proof.Machine

namespace Sys2Proof.Machine

/-! ### Construction and writes of `RM` (41_matrix_write_ops.md) -/

/-- Settles O19: on a configured unit the shape check comes next, and it refuses. -/
theorem wrongShapeIsIllegal : Obligations.WrongShapeIsIllegal := by
  refine fun s => ⟨fun regs hc hlen => ?_, fun vals hc hlen => ⟨?_, fun idx => ?_⟩⟩
  · exact (whenEncConfigured_of_configured hc _).trans (whenShaped_of_false (decide_eq_false hlen) s _)
  · exact (whenRmConfigured_of_configured hc _).trans (whenShaped_of_false (decide_eq_false hlen) s _)
  · exact (whenRmConfigured_of_configured hc _).trans (whenShaped_of_false (decide_eq_false hlen) s _)

theorem exceedsCapacity_eq_false_iff (cap : Option Nat) (log2 len : Nat) :
    exceedsCapacity cap log2 len = false ↔ ∀ c, cap = some c → 2 ^ log2 * len ≤ c := by
  cases cap <;> simp [exceedsCapacity]

/-- Settles O33: the capacity check passes, and the constructed store is empty. -/
theorem rmConfigBuildsAZeroMatrix : Obligations.RmConfigBuildsAZeroMatrix :=
  fun _ log2 len hc hcap =>
    ⟨[], exec_rmConfig_built hc ((exceedsCapacity_eq_false_iff _ log2 len).2 hcap), Memory.wf_nil, Memory.read_nil⟩

/-- Settles O34: the two checks of `RM.CONFIG`, in their order. -/
theorem rmConfigRefusals : Obligations.RmConfigRefusals := by
  refine fun s log2 len => ⟨fun hc => if_pos hc, fun cap hc hcap hlt => exec_rmConfig_refused hc ?_⟩
  rw [hcap]
  exact decide_eq_true hlt

/-- On a configured matrix `RM.ENTER_SYMBOL_AT` of `S` values is a column write. -/
theorem exec_rmEnterSymbolAt {s : State} (hc : s.rm.configured = true) (idx : Nat) {vals : List Val}
    (hlen : vals.length = s.rm.nbSymbols) :
    exec (.rmEnterSymbolAt idx vals) s = respond .none (s.withRm (s.rm.writeColumn idx vals)) :=
  (whenRmConfigured_of_configured hc _).trans (whenShaped_of_true (decide_eq_true hlen) s _)

/-- The elements of the column after a column write. -/
theorem RmUnit.read_writeColumn_inside {u : RmUnit} (hwf : Memory.wf u.matrix) {p : Nat} {vals : List Val}
    (hp : p < u.messageLength) (hlen : vals.length = u.nbSymbols) {c : Nat} (hc : c < u.nbSymbols) :
    Memory.read (u.writeColumn p vals).matrix (p * u.nbSymbols + c) = vals.getD c vzero := by
  have hentry := RmUnit.entry_writeColumn hwf hp hlen p hc
  rw [if_pos rfl, RmUnit.entry, RmUnit.address, RmUnit.writeColumn_nbSymbols] at hentry
  exact hentry

/-- The elements outside the column after a column write. -/
theorem RmUnit.read_writeColumn_outside {u : RmUnit} (hwf : Memory.wf u.matrix) {p : Nat} {vals : List Val}
    (hp : p < u.messageLength) (hlen : vals.length = u.nbSymbols) {a : Nat}
    (ha : a < p * u.nbSymbols ∨ p * u.nbSymbols + u.nbSymbols ≤ a) :
    Memory.read (u.writeColumn p vals).matrix a = Memory.read u.matrix a := by
  rw [RmUnit.read_writeColumn hwf hp hlen, if_neg]
  unfold RmUnit.address
  omega

/-- Settles O35: below `L` the insertion is the column write at the cursor, at `L` it is the identity. -/
theorem enterSymbolFillsTheCursorColumn : Obligations.EnterSymbolFillsTheCursorColumn := by
  refine fun s vals hc hwf hlen => ⟨fun hlt => ?below, fun hge => ?atEnd⟩
  case below =>
    refine ⟨_, ?_, fun c => RmUnit.read_writeColumn_inside hwf hlt hlen,
      fun a => RmUnit.read_writeColumn_outside hwf hlt hlen⟩
    rw [exec_rmEnterSymbol hc hlen, RmUnit.appendColumn_eq_withMatrix hlt]
    rfl
  case atEnd =>
    rw [exec_rmEnterSymbol hc hlen, RmUnit.appendColumn_of_ge hge]
    rfl

/-- Settles O36: the column write at the position, which is the identity from `L` on. -/
theorem enterSymbolAtFillsThePosition : Obligations.EnterSymbolAtFillsThePosition := by
  refine fun s idx vals hc hwf hlen => ⟨fun hlt => ?inside, fun hge => ?outside⟩
  case inside =>
    refine ⟨_, ?_, fun c => RmUnit.read_writeColumn_inside hwf hlt hlen,
      fun a => RmUnit.read_writeColumn_outside hwf hlt hlen⟩
    rw [exec_rmEnterSymbolAt hc idx hlen, RmUnit.writeColumn_eq_withMatrix]
    rfl
  case outside =>
    rw [exec_rmEnterSymbolAt hc idx hlen, RmUnit.writeColumn_of_ge hge]
    rfl

/-- Settles O38: `S` zeros have the right shape, so the insertion passes its shape check and runs as the erasure
does. -/
theorem erasureEqualsZeroSymbol : Obligations.ErasureEqualsZeroSymbol := by
  intro s
  cases hc : s.rm.configured with
  | false =>
    have refuses : ∀ run, whenRmConfigured s run = raise .errNotConfigured s := whenRmConfigured_of_unconfigured hc
    exact ⟨(refuses _).trans (refuses _).symm, fun idx => (refuses _).trans (refuses _).symm⟩
  | true =>
    exact ⟨(exec_rmEnterErasure hc).trans (exec_rmEnterSymbol hc List.length_replicate).symm,
      fun idx => (exec_rmEnterErasureAt hc idx).trans (exec_rmEnterSymbolAt hc idx List.length_replicate).symm⟩

/-! ### Reads (43_matrix_read_ops.md) -/

/-- On a configured matrix `RM.READ` inside the store answers the entry. -/
theorem exec_rmRead {s : State} (hc : s.rm.configured = true) {idx2 idx : Nat} (hp : idx < s.rm.messageLength)
    (hcand : idx2 < s.rm.nbSymbols) : exec (.rmRead idx2 idx) s = respond (.value (s.rm.entry idx idx2)) s :=
  (whenRmConfigured_of_configured hc _).trans (if_pos ⟨hp, hcand⟩)

/-- On a configured matrix `RM.READ` outside the store answers a free value. -/
theorem exec_rmRead_outside {s : State} (hc : s.rm.configured = true) {idx2 idx : Nat}
    (hout : ¬ (idx < s.rm.messageLength ∧ idx2 < s.rm.nbSymbols)) :
    exec (.rmRead idx2 idx) s = respond (.value (Config.freeVal s.draws)) (s.drawn 1) :=
  (whenRmConfigured_of_configured hc _).trans (if_neg hout)

/-- On a configured matrix `RM.DUMP` answers the dump. -/
theorem exec_rmDump {s : State} (hc : s.rm.configured = true) : exec .rmDump s = respond (.dump s.rm.dump) s :=
  whenRmConfigured_of_configured hc _

/-- Settles O52: the two branches of the read. -/
theorem readReturnsTheEntry : Obligations.ReadReturnsTheEntry := by
  refine ⟨fun _ _ => ⟨rfl, rfl⟩, fun s idx2 idx hc => ⟨fun hp hcand => exec_rmRead hc hp hcand, fun hout => ?_⟩⟩
  exact ⟨_, _, exec_rmRead_outside hc (by omega)⟩

/-- Settles O53: the dump is a concatenation of rows of length `L`, one per candidate. -/
theorem dumpIsTheTransposedStore : Obligations.DumpIsTheTransposedStore :=
  fun s hc => ⟨s.rm.dump, exec_rmDump hc, s.rm.dump_length,
    fun _ _ hcand hp => getElem?_flatMap_range _ _ (fun c p => s.rm.entry p c) hcand hp⟩

/-- `RM.NORMALIZE` on a store with an entry that is not admitted leaves free values. -/
theorem exec_rmNormalize_undefined {s : State} (hc : s.rm.configured = true)
    (hadm : Memory.allAdmitted s.rm.matrix = false) :
    exec .rmNormalize s = respond .none ((s.withRm (s.rm.scrambled s.draws)).drawn s.rm.size) :=
  (whenRmConfigured_of_configured hc _).trans (if_neg (Bool.eq_false_iff.1 hadm))

/-- `RM.FIND_MAX` on a store with an entry that is not admitted answers free values. -/
theorem exec_rmFindMax_undefined {s : State} (hc : s.rm.configured = true)
    (hadm : Memory.allAdmitted s.rm.matrix = false) :
    exec .rmFindMax s =
      respond (.maximum (Config.freeVal s.draws) (freeIndexPort s.params s.draws)
        (freeIndexPort s.params (s.draws + 1))) (s.drawn 2) :=
  (whenRmConfigured_of_configured hc _).trans (if_neg (Bool.eq_false_iff.1 hadm))

/-- `RM.FIND_MAX_IN_COL` answers free values on such a store, and for a bound that cannot be compared. -/
theorem exec_rmFindMaxInCol_undefined {s : State} (hc : s.rm.configured = true) (idx : Nat) {bound : Val}
    (hundef : Memory.allAdmitted s.rm.matrix = false ∨ Val.comparable bound = false) :
    exec (.rmFindMaxInCol idx bound) s =
      respond (.columnMaximum (Config.freeVal s.draws) (freeIndexPort s.params s.draws)) (s.drawn 1) := by
  refine (whenRmConfigured_of_configured hc _).trans (if_neg ?_)
  rcases hundef with h | h <;> simp [h]

/-- Settles O55: the three branches that draw free values. -/
theorem undefinedResultsAreFreeValues : Obligations.UndefinedResultsAreFreeValues :=
  fun _ hc =>
    ⟨fun hadm => ⟨⟨_, _, exec_rmNormalize_undefined hc hadm⟩, ⟨_, _, _, _, exec_rmFindMax_undefined hc hadm⟩⟩,
      fun idx _ hundef => ⟨_, _, _, exec_rmFindMaxInCol_undefined hc idx hundef⟩⟩

/-! ### Idempotence (20_memory.md section 2) -/

/-- An outcome in which both units stay as they were. -/
def KeepsUnits (s : State) (o : Host.Outcome State Fault Refusal) : Prop :=
  ∃ r n, o = .next { s with response := r, draws := n }

theorem keepsUnits_whenRm {s : State} {run : Host.Outcome State Fault Refusal} (h : KeepsUnits s run) :
    KeepsUnits s (whenRmConfigured s run) := by
  unfold whenRmConfigured
  split
  · exact h
  · exact ⟨_, s.draws, rfl⟩

theorem keepsUnits_ite {s : State} {c : Prop} [Decidable c] {a b : Host.Outcome State Fault Refusal}
    (ha : KeepsUnits s a) (hb : KeepsUnits s b) : KeepsUnits s (if c then a else b) := by
  split
  · exact ha
  · exact hb

/-- No read changes a unit (R57). -/
theorem exec_read_keepsUnits {i : Instr} (s : State)
    (h : i = .rmFindMax ∨ (∃ idx val, i = .rmFindMaxInCol idx val) ∨ (∃ idx2 idx, i = .rmRead idx2 idx) ∨
      i = .rmDump) : KeepsUnits s (exec i s) := by
  rcases h with rfl | ⟨idx, val, rfl⟩ | ⟨idx2, idx, rfl⟩ | rfl
  · exact keepsUnits_whenRm (keepsUnits_ite ⟨_, s.draws, rfl⟩ ⟨_, _, rfl⟩)
  · exact keepsUnits_whenRm (keepsUnits_ite ⟨_, s.draws, rfl⟩ ⟨_, _, rfl⟩)
  · exact keepsUnits_whenRm (keepsUnits_ite ⟨_, s.draws, rfl⟩ ⟨_, _, rfl⟩)
  · exact keepsUnits_whenRm ⟨_, s.draws, rfl⟩

/-- An operation that changed nothing but the response does the same again. -/
theorem exec_repeats {i : Instr} {s t : State} {r : Option Response} (hr : exec i s = .next (s.withResponse r))
    (ht : exec i s = .next t) : exec i t = .next t := by
  have : t = s.withResponse r := by
    rw [hr] at ht
    cases ht
    rfl
  rw [this, exec_withResponse, hr]

@[simp] theorem RmUnit.writeColumn_address (u : RmUnit) (p : Nat) (vals : List Val) (q c : Nat) :
    (u.writeColumn p vals).address q c = u.address q c := by
  unfold RmUnit.address
  rw [RmUnit.writeColumn_nbSymbols]

/-- A column write repeated changes nothing more. -/
theorem RmUnit.writeColumn_writeColumn {u : RmUnit} (hwf : Memory.wf u.matrix) (p : Nat) {vals : List Val}
    (hlen : vals.length = u.nbSymbols) : (u.writeColumn p vals).writeColumn p vals = u.writeColumn p vals := by
  rcases Nat.lt_or_ge p u.messageLength with hp | hp
  · have hp' : p < (u.writeColumn p vals).messageLength := by simpa using hp
    have hlen' : vals.length = (u.writeColumn p vals).nbSymbols := by simpa using hlen
    have hwf' := RmUnit.writeColumn_wf hwf p vals
    have hmem : ((u.writeColumn p vals).writeColumn p vals).matrix = (u.writeColumn p vals).matrix := by
      refine Memory.ext_of_read (RmUnit.writeColumn_wf hwf' p vals) hwf' fun a => ?_
      rw [RmUnit.read_writeColumn hwf' hp' hlen', RmUnit.read_writeColumn hwf hp hlen]
      rw [RmUnit.writeColumn_address, RmUnit.writeColumn_nbSymbols]
      split <;> rfl
    rw [RmUnit.writeColumn_eq_withMatrix, hmem]
  · rw [RmUnit.writeColumn_of_ge hp, RmUnit.writeColumn_of_ge hp]

/-- An indexed write repeated changes nothing more, and answers the same. -/
theorem exec_rmEnterSymbolAt_repeats {s t : State} (hwf : Memory.wf s.rm.matrix) {idx : Nat} {vals : List Val}
    (ht : exec (.rmEnterSymbolAt idx vals) s = .next t) : exec (.rmEnterSymbolAt idx vals) t = .next t := by
  cases hc : s.rm.configured with
  | false => exact exec_repeats (unconfiguredUnitsRefuse _ s rfl (.inr ⟨rfl, hc⟩)) ht
  | true =>
    by_cases hlen : vals.length = s.rm.nbSymbols
    · rw [exec_rmEnterSymbolAt hc idx hlen] at ht
      cases ht
      rw [exec_rmEnterSymbolAt (by simpa using hc) idx (by simpa using hlen)]
      simp only [State.withRm_rm, RmUnit.writeColumn_writeColumn hwf idx hlen]
      rfl
    · exact exec_repeats (((wrongShapeIsIllegal s).2 vals hc hlen).2 idx) ht

/-- Settles O54: the reads keep the units by `exec_read_keepsUnits`; an erasure is an insertion of zeros, an
insertion repeats by `exec_rmEnterSymbolAt_repeats`, and a read with a defined result changes the response alone. -/
theorem readsAndIndexedWritesAreIdempotent : Obligations.ReadsAndIndexedWritesAreIdempotent := by
  refine ⟨fun i s t hi ht => ?reads, fun i s t hwf hi ht => ?repeats⟩
  case reads =>
    obtain ⟨r, n, hexec⟩ := exec_read_keepsUnits s hi
    rw [hexec] at ht
    cases ht
    exact ⟨rfl, rfl⟩
  case repeats =>
    cases hc : s.rm.configured with
    | false =>
      have hrefuse : exec i s = raise .errNotConfigured s := by
        rcases hi with ⟨_, _, rfl⟩ | ⟨_, rfl⟩ | ⟨_, _, rfl, -, -⟩ | rfl | ⟨rfl, -⟩ | ⟨_, _, rfl, -, -⟩ <;>
          exact whenRmConfigured_of_unconfigured hc _
      exact exec_repeats hrefuse ht
    | true =>
      rcases hi with ⟨idx, vals, rfl⟩ | ⟨idx, rfl⟩ | ⟨idx2, idx, rfl, hp, hcand⟩ | rfl | ⟨rfl, hadm⟩ |
        ⟨idx, val, rfl, hadm, hval⟩
      · exact exec_rmEnterSymbolAt_repeats hwf ht
      · have hnb := ((exec_effect ht).follows hc).nbSymbols
        rw [(erasureEqualsZeroSymbol s).2 idx] at ht
        rw [(erasureEqualsZeroSymbol t).2 idx, hnb]
        exact exec_rmEnterSymbolAt_repeats hwf ht
      · exact exec_repeats (exec_rmRead hc hp hcand) ht
      · exact exec_repeats (exec_rmDump hc) ht
      · exact exec_repeats (exec_rmFindMax hc hadm) ht
      · exact exec_repeats (exec_findMaxInCol hc hadm idx hval) ht

end Sys2Proof.Machine

namespace Sys2Proof.Machine

/-! ### The deinterleaver (42_matrix_transform_ops.md R143 to R145) -/

/-- On a configured matrix `RM.DEINTERLEAVE` rewrites the store. -/
theorem exec_rmDeinterleave {s : State} (hc : s.rm.configured = true) :
    exec .rmDeinterleave s = respond .none (s.withRm s.rm.deinterleaved) :=
  whenRmConfigured_of_configured hc _

/-- Every entry after deinterleaving. -/
theorem RmUnit.entry_deinterleaved {u : RmUnit} {d c : Nat} (hd : d < u.messageLength) (hc : c < u.nbSymbols) :
    u.deinterleaved.entry d c = u.entry (deinterleaveSource u.messageLength d) c :=
  RmUnit.entry_rewrite _ hd hc

/-- From its size on, a store of `L * S` elements reads as a pass over it leaves it. -/
theorem RmUnit.read_rewrite_outside {p : Params} {u : RmUnit} (h : RmUnit.Inv p u) (g : Nat → Nat → Val) {a : Nat}
    (ha : u.size ≤ a) : Memory.read (u.rewrite g).matrix a = Memory.read u.matrix a := by
  rw [RmUnit.read_rewrite, if_neg (Nat.not_lt.2 ha), Memory.read_of_not_listed]
  intro x hx hxa
  have := h.insideStore x hx
  omega

/-- Settles O44: each entry by `RmUnit.entry_deinterleaved`, and the elements from `L * S` on stay unlisted. -/
theorem deinterleaveMovesWholeColumns : Obligations.DeinterleaveMovesWholeColumns :=
  fun s hc hinv => ⟨s.rm.deinterleaved.matrix, exec_rmDeinterleave hc,
    fun _ _ => RmUnit.entry_deinterleaved, fun _ => RmUnit.read_rewrite_outside hinv _⟩

/-- The list of sources, source by source. -/
theorem map_deinterleaveSource (len : Nat) :
    (List.range len).map (deinterleaveSource len) = deinterleaveSources len := by
  have h := map_range_getD (deinterleaveSources len) 0
  rwa [deinterleaveSources_length] at h

/-- Each position is a source. -/
theorem exists_deinterleaveSource {len p : Nat} (hp : p < len) : ∃ d, d < len ∧ deinterleaveSource len d = p := by
  have hmem : p ∈ deinterleaveSources len := (deinterleaveSources_perm len).mem_iff.2 (List.mem_range.2 hp)
  rw [← map_deinterleaveSource, List.mem_map] at hmem
  simpa using hmem

/-- The sources come in ascending order of their bit reversals. -/
theorem bitrev_deinterleaveSource_lt {len d e : Nat} (hde : d < e) (he : e < len) :
    bitrev (deinterleaveSource len d) (clog2 len + 1) < bitrev (deinterleaveSource len e) (clog2 len + 1) := by
  rw [deinterleaveSource_eq_getElem (hde.trans he), deinterleaveSource_eq_getElem he]
  exact List.pairwise_iff_getElem.1 (deinterleaveSources_sorted len) d e _ _ hde

/-- Every column after deinterleaving, as a list. -/
theorem RmUnit.memRead_deinterleaved {u : RmUnit} {d : Nat} (hd : d < u.messageLength) :
    memRead u.deinterleaved.matrix (d * u.nbSymbols) u.nbSymbols =
      memRead u.matrix (deinterleaveSource u.messageLength d * u.nbSymbols) u.nbSymbols :=
  RmUnit.memRead_rewrite _ hd

/-- Settles O45: the order of the sources is that of `deinterleaveSources_sorted`, and the new columns are the old
ones along a permutation of the positions. -/
theorem deinterleaveIsThePermutationByBitReversal : Obligations.DeinterleaveIsThePermutationByBitReversal := by
  refine ⟨fun len => ⟨fun d => deinterleaveSource_lt, fun p => exists_deinterleaveSource,
    fun d e => bitrev_deinterleaveSource_lt⟩, fun s t hc ht => ?_⟩
  rw [exec_rmDeinterleave hc] at ht
  cases ht
  have hcolumn : ∀ d, d < s.rm.messageLength → _ := fun d => RmUnit.memRead_deinterleaved (u := s.rm)
  refine ⟨hcolumn, ?_⟩
  have hcolumns : (List.range s.rm.messageLength).map
      (fun d => memRead s.rm.deinterleaved.matrix (d * s.rm.nbSymbols) s.rm.nbSymbols) =
        (deinterleaveSources s.rm.messageLength).map
          (fun p => memRead s.rm.matrix (p * s.rm.nbSymbols) s.rm.nbSymbols) := by
    rw [← map_deinterleaveSource, List.map_map]
    exact List.map_congr_left fun d hd => hcolumn d (List.mem_range.1 hd)
  show ((List.range s.rm.messageLength).map
      (fun d => memRead s.rm.deinterleaved.matrix (d * s.rm.nbSymbols) s.rm.nbSymbols)).Perm _
  rw [hcolumns]
  exact (deinterleaveSources_perm _).map _

theorem deinterleaveSource_two_pow {q d : Nat} (hd : d < 2 ^ q) : deinterleaveSource (2 ^ q) d = bitrev d q := by
  unfold deinterleaveSource
  rw [deinterleaveSources_two_pow]
  exact getD_map_range _ _ 0 hd

/-- For a power of two the source of the source is the position itself. -/
theorem deinterleaveSource_involutive {q d : Nat} (hd : d < 2 ^ q) :
    deinterleaveSource (2 ^ q) (deinterleaveSource (2 ^ q) d) = d := by
  rw [deinterleaveSource_two_pow (deinterleaveSource_lt hd), deinterleaveSource_two_pow hd, bitrev_bitrev hd]

/-- For a power of two deinterleaving undoes itself. -/
theorem RmUnit.deinterleaved_deinterleaved {p : Params} {u : RmUnit} (h : RmUnit.Inv p u) {q : Nat}
    (hlen : u.messageLength = 2 ^ q) : u.deinterleaved.deinterleaved = u := by
  calc u.deinterleaved.deinterleaved = u.rewrite u.entry := RmUnit.rewrite_congr fun d hd c hc => by
        rw [RmUnit.deinterleaved_messageLength, RmUnit.entry_deinterleaved (u := u) (deinterleaveSource_lt hd) hc, hlen,
          deinterleaveSource_involutive (hlen ▸ hd)]
    _ = u := RmUnit.rewrite_entry h.canonical h.insideStore

/-- Settles O46: the closed form of the sources, and the bit reversal is its own inverse. -/
theorem powerOfTwoDeinterleaveUndoesItself : Obligations.PowerOfTwoDeinterleaveUndoesItself :=
  ⟨fun _ _ => deinterleaveSource_two_pow, fun _ _ hc hinv hlen =>
    ⟨_, _, exec_rmDeinterleave hc, exec_rmDeinterleave hc, RmUnit.deinterleaved_deinterleaved hinv hlen⟩⟩

/-- Settles O47: the sources of each length of the table, computed. -/
theorem deinterleaveSourcesOfSmallLengths : Obligations.DeinterleaveSourcesOfSmallLengths := by
  unfold Obligations.DeinterleaveSourcesOfSmallLengths
  decide

/-! ### Normalisation (42_matrix_transform_ops.md R140, R141) -/

/-- On a configured matrix of admitted values `RM.NORMALIZE` rewrites the store. -/
theorem exec_rmNormalize {s : State} (hc : s.rm.configured = true) (ha : Memory.allAdmitted s.rm.matrix = true) :
    exec .rmNormalize s = respond .none (s.withRm (s.rm.normalized s.params.numeric)) :=
  (whenRmConfigured_of_configured hc _).trans (if_pos ha)

theorem RmUnit.entry_normalized {u : RmUnit} (f : Numeric) {p c : Nat} (hp : p < u.messageLength)
    (hc : c < u.nbSymbols) : (u.normalized f).entry p c = u.normalizedEntry f p c :=
  RmUnit.entry_rewrite _ hp hc

theorem RmUnit.normalized_admitted {u : RmUnit} (ha : Memory.allAdmitted u.matrix = true) (f : Numeric) :
    Memory.allAdmitted (u.normalized f).matrix = true :=
  RmUnit.rewrite_admitted (RmUnit.normalizedEntry_admitted ha f)

/-- On admitted values `veq` is equality. -/
theorem veq_iff_of_admitted {a b : Val} (ha : Val.admitted a = true) (hb : Val.admitted b = true) :
    veq a b = true ↔ a = b := by
  obtain ⟨x, -, rfl⟩ := (Val.admitted_iff a).1 ha
  obtain ⟨y, -, rfl⟩ := (Val.admitted_iff b).1 hb
  simp

/-- The entry after normalisation, with the sum of its column compared by equality. -/
theorem RmUnit.normalizedEntry_eq {u : RmUnit} (ha : Memory.allAdmitted u.matrix = true) (f : Numeric) (p c : Nat) :
    u.normalizedEntry f p c =
      if u.columnSum f p = vzero then u.entry p c else vdiv f (u.entry p c) (u.columnSum f p) := by
  unfold RmUnit.normalizedEntry
  simp only [veq_iff_of_admitted (RmUnit.columnSum_admitted ha f p) (b := vzero) rfl]

/-- Settles O41: the sum over the column's entries is `RmUnit.columnSum`, and the entry is that of
`RmUnit.normalizedEntry_eq`. -/
theorem normalizeDividesByTheColumnSum : Obligations.NormalizeDividesByTheColumnSum := by
  intro s hc hinv ha
  refine ⟨(s.rm.normalized s.params.numeric).matrix, exec_rmNormalize hc ha, fun p c hp hcand sum hsum => ?_,
    fun a => RmUnit.read_rewrite_outside hinv _⟩
  have hsum' : sum = s.rm.columnSum s.params.numeric p := by rw [hsum, List.foldl_map]; rfl
  have hentry := (s.rm.entry_normalized s.params.numeric hp hcand).trans (RmUnit.normalizedEntry_eq ha _ p c)
  rw [hsum']
  exact hentry

/-- The rational number of a finite value. -/
def finitePart : Val → Rat
  | .fin q => q
  | _ => 0

theorem fin_finitePart {v : Val} (h : Val.admitted v = true) : Val.fin (finitePart v) = v := by
  obtain ⟨q, -, rfl⟩ := (Val.admitted_iff v).1 h
  rfl

theorem finitePart_nonneg {v : Val} (h : Val.admitted v = true) : 0 ≤ finitePart v := by
  obtain ⟨q, hq, rfl⟩ := (Val.admitted_iff v).1 h
  exact hq

/-- The sum of a column in exact arithmetic. -/
def RmUnit.ratSum (u : RmUnit) (p : Nat) : Rat := ∑ c ∈ Finset.range u.nbSymbols, finitePart (u.entry p c)

section
variable {u : RmUnit} (ha : Memory.allAdmitted u.matrix = true) (p : Nat)
include ha

theorem RmUnit.columnSum_exact_eq : u.columnSum .exact p = .fin (u.ratSum p) :=
  RmUnit.columnSum_exact fun c _ => (fin_finitePart (RmUnit.admitted_entry ha p c)).symm

/-- In exact arithmetic a zero column needs no case of its own, since its entries are zero. -/
theorem RmUnit.normalizedEntry_exact {c : Nat} (hc : c < u.nbSymbols) :
    u.normalizedEntry .exact p c = .fin (finitePart (u.entry p c) / u.ratSum p) := by
  have hentry := fin_finitePart (RmUnit.admitted_entry ha p c)
  rw [RmUnit.normalizedEntry_eq ha]
  split
  · rename_i hzero
    rw [(RmUnit.columnSum_eq_zero_iff ha .exact p).1 hzero c hc]
    simp [finitePart]
  · rw [RmUnit.columnSum_exact_eq ha, ← hentry]
    rfl

theorem RmUnit.entry_normalized_exact (hp : p < u.messageLength) {c : Nat} (hc : c < u.nbSymbols) :
    (u.normalized .exact).entry p c = .fin (finitePart (u.entry p c) / u.ratSum p) := by
  rw [RmUnit.entry_normalized .exact hp hc, RmUnit.normalizedEntry_exact ha p hc]

/-- The sum of a column after normalisation: the sum before, divided by itself. -/
theorem RmUnit.ratSum_normalized (hp : p < u.messageLength) :
    (u.normalized .exact).ratSum p = u.ratSum p / u.ratSum p := by
  unfold RmUnit.ratSum
  rw [Finset.sum_div]
  refine Finset.sum_congr rfl fun c hc => ?_
  rw [RmUnit.entry_normalized_exact ha p hp (Finset.mem_range.1 hc)]
  rfl

/-- In exact arithmetic a second normalisation changes nothing. -/
theorem RmUnit.normalized_normalized : (u.normalized .exact).normalized .exact = u.normalized .exact := by
  refine RmUnit.rewrite_congr fun p hp c hc => ?_
  rw [RmUnit.normalizedEntry_exact (RmUnit.normalized_admitted ha _) p hc, RmUnit.entry_normalized_exact ha p hp hc,
    RmUnit.ratSum_normalized ha p hp, RmUnit.normalizedEntry_exact ha p hc]
  show Val.fin (finitePart (u.entry p c) / u.ratSum p / (u.ratSum p / u.ratSum p)) = _
  by_cases hzero : u.ratSum p = 0
  · simp [hzero]
  · rw [div_self hzero, div_one]

/-- In exact arithmetic normalisation keeps the order inside a column. -/
theorem RmUnit.vlt_normalized (hp : p < u.messageLength) {c d : Nat} (hc : c < u.nbSymbols) (hd : d < u.nbSymbols) :
    vlt ((u.normalized .exact).entry p c) ((u.normalized .exact).entry p d) = vlt (u.entry p c) (u.entry p d) := by
  rw [RmUnit.entry_normalized_exact ha p hp hc, RmUnit.entry_normalized_exact ha p hp hd]
  by_cases hzero : u.columnSum .exact p = vzero
  · have hentry := (RmUnit.columnSum_eq_zero_iff ha .exact p).1 hzero
    rw [hentry c hc, hentry d hd]
    simp [finitePart]
  · have hpos : 0 < u.ratSum p := by
      refine lt_of_le_of_ne (Finset.sum_nonneg fun e _ => finitePart_nonneg (RmUnit.admitted_entry ha p e)) ?_
      rintro hsum
      rw [RmUnit.columnSum_exact_eq ha, ← hsum] at hzero
      exact hzero rfl
    rw [← fin_finitePart (RmUnit.admitted_entry ha p c), ← fin_finitePart (RmUnit.admitted_entry ha p d)]
    simp only [vlt_fin, finitePart, div_lt_div_iff_of_pos_right hpos]

end

/-- Settles O42: by `RmUnit.ratSum_normalized` the sum after is the sum before divided by itself; a zero column has
zero entries, and they stay. -/
theorem normalizedColumnsSumToOne : Obligations.NormalizedColumnsSumToOne := by
  intro s hc hexact ha
  refine ⟨_, exec_rmNormalize hc ha, fun p hp => ?_⟩
  rw [hexact]
  show (_ → (s.rm.normalized .exact).columnSum .exact p = _) ∧
    (_ → ∀ c, _ → (s.rm.normalized .exact).entry p c = _)
  constructor
  · intro hne
    rw [RmUnit.columnSum_exact_eq ha] at hne
    have hsum : s.rm.ratSum p ≠ 0 := fun h => hne (congrArg Val.fin h)
    rw [RmUnit.columnSum_exact_eq (RmUnit.normalized_admitted ha _), RmUnit.ratSum_normalized ha p hp, div_self hsum]
  · intro hzero c hcand
    rw [RmUnit.entry_normalized .exact hp hcand, RmUnit.normalizedEntry_eq ha, if_pos hzero]
    exact (RmUnit.columnSum_eq_zero_iff ha .exact p).1 hzero c hcand

/-- Settles O43: `RmUnit.normalized_normalized` and `RmUnit.vlt_normalized`. -/
theorem exactNormalizeIsIdempotentAndMonotone : Obligations.ExactNormalizeIsIdempotentAndMonotone := by
  intro s hc hexact ha
  have hnormalize := exec_rmNormalize hc ha
  rw [hexact] at hnormalize
  refine ⟨_, hnormalize, ?_, fun p c d hp hcand hd => RmUnit.vlt_normalized ha p hp hcand hd⟩
  rw [exec_rmNormalize (by exact hc) (by exact RmUnit.normalized_admitted ha .exact)]
  show respond .none (s.withRm ((s.rm.normalized .exact).normalized s.params.numeric)) = _
  rw [hexact, RmUnit.normalized_normalized ha]
  rfl

/-- Deinterleaving moves the sum of a column with the column. -/
theorem RmUnit.columnSum_deinterleaved (u : RmUnit) (f : Numeric) {d : Nat} (hd : d < u.messageLength) :
    u.deinterleaved.columnSum f d = u.columnSum f (deinterleaveSource u.messageLength d) :=
  RmUnit.columnSum_congr f rfl fun _ hc => RmUnit.entry_deinterleaved hd hc

/-- Each column is divided by its own sum, wherever it stands. -/
theorem RmUnit.normalized_deinterleaved (u : RmUnit) (f : Numeric) :
    u.deinterleaved.normalized f = (u.normalized f).deinterleaved := by
  show u.rewrite (u.deinterleaved.normalizedEntry f) =
    u.rewrite fun d c => (u.normalized f).entry (deinterleaveSource u.messageLength d) c
  refine RmUnit.rewrite_congr fun d hd c hc => ?_
  rw [RmUnit.entry_normalized f (deinterleaveSource_lt hd) hc]
  unfold RmUnit.normalizedEntry
  rw [RmUnit.columnSum_deinterleaved u f hd, RmUnit.entry_deinterleaved hd hc]

theorem RmUnit.deinterleaved_admitted {u : RmUnit} (ha : Memory.allAdmitted u.matrix = true) :
    Memory.allAdmitted u.deinterleaved.matrix = true :=
  RmUnit.rewrite_admitted fun _ _ => RmUnit.admitted_entry ha _ _

/-- Settles O48: both orders rewrite the store, to the two sides of `RmUnit.normalized_deinterleaved`. -/
theorem normalizeAndDeinterleaveCommute : Obligations.NormalizeAndDeinterleaveCommute := by
  intro s hc ha
  refine ⟨_, _, _, exec_rmNormalize hc ha, exec_rmDeinterleave hc, exec_rmDeinterleave hc, ?_⟩
  rw [exec_rmNormalize (by exact hc) (by exact RmUnit.deinterleaved_admitted ha)]
  show respond .none (s.withRm (s.rm.deinterleaved.normalized s.params.numeric)) = _
  rw [RmUnit.normalized_deinterleaved]
  rfl

end Sys2Proof.Machine

namespace Sys2Proof.Machine

/-! ### The search of one column (43_matrix_read_ops.md R154 to R156) -/

theorem vlt_irrefl (v : Val) : vlt v v = false := by
  unfold vlt
  cases Val.place v <;> simp

theorem ne_of_vlt {a b : Val} (h : vlt a b = true) : a ≠ b := by
  rintro rfl
  simp [vlt_irrefl] at h

/-- On admitted values `vle` without `vlt` is equality. -/
theorem eq_or_vlt_of_vle {a b : Val} (ha : Val.admitted a = true) (hb : Val.admitted b = true)
    (h : vle a b = true) : a = b ∨ vlt a b = true := by
  obtain ⟨x, -, rfl⟩ := (Val.admitted_iff a).1 ha
  obtain ⟨y, -, rfl⟩ := (Val.admitted_iff b).1 hb
  simpa using eq_or_lt_of_le (by simpa using h)

theorem comparable_of_admitted {v : Val} (h : Val.admitted v = true) : Val.comparable v = true := by
  obtain ⟨q, -, rfl⟩ := (Val.admitted_iff v).1 h
  rfl

/-- An admitted value that is not positive lies below every positive one. -/
theorem vlt_of_not_pos {a b : Val} (ha : Val.admitted a = true) (hb : vlt vzero b = true)
    (h : ¬ vlt vzero a = true) : vlt a b = true := by
  have hle : vle a vzero = true := by
    obtain ⟨x, -, rfl⟩ := (Val.admitted_iff a).1 ha
    simpa using h
  rcases eq_or_vlt_of_vle ha rfl hle with rfl | hlt
  · exact hb
  · exact vlt_trans hlt hb

theorem vle_of_vlt {a b : Val} (ha : Val.admitted a = true) (hb : Val.admitted b = true)
    (h : vlt a b = true) : vle a b = true := by
  obtain ⟨x, -, rfl⟩ := (Val.admitted_iff a).1 ha
  obtain ⟨y, -, rfl⟩ := (Val.admitted_iff b).1 hb
  simpa using le_of_lt (by simpa using h)

/-- Settles O50: the two cases of `RmUnit.findMaxInCol_spec` are the two clauses; an entry below the bound that is
not positive lies below the positive one found. -/
theorem findMaxInColIsTheLastGreatestBelowTheBound : Obligations.FindMaxInColIsTheLastGreatestBelowTheBound := by
  intro s p bound hc ha hb
  refine ⟨_, _, exec_findMaxInCol hc ha p hb, ?_⟩
  rcases RmUnit.findMaxInCol_spec ha p bound with ⟨hnone, hmax⟩ | ⟨c, hp, hcand, hmax, hpos, hbelow, hgreatest⟩
  · rw [hmax]
    refine ⟨fun _ => ⟨rfl, rfl⟩, fun hp ⟨d, hd, hboth⟩ => ?_⟩
    rcases hnone with hge | hnone
    · exact absurd hp (Nat.not_lt.2 hge)
    · exact absurd hboth (hnone d hd)
  · rw [hmax]
    refine ⟨fun hnone => ?_, fun _ _ => ⟨hpos, hbelow, hcand, rfl, fun d hd hdb => ?_⟩⟩
    · rcases hnone with hge | hnone
      · exact absurd hp (Nat.not_lt.2 hge)
      · exact absurd ⟨hpos, hbelow⟩ (hnone c hcand)
    · by_cases hdpos : vlt vzero (s.rm.entry p d) = true
      · obtain ⟨hle, hlater⟩ := hgreatest d hd hdpos hdb
        exact ⟨hle, fun heq => Nat.le_of_not_lt fun hcd => ne_of_vlt (hlater hcd) heq⟩
      · have hlt := vlt_of_not_pos (RmUnit.admitted_entry ha p d) hpos hdpos
        exact ⟨vle_of_vlt (RmUnit.admitted_entry ha p d) (RmUnit.admitted_entry ha p c) hlt,
          fun heq => absurd heq (ne_of_vlt hlt)⟩

/-- One link of the chain: it ends at `vzero`, or gives what the search found and goes on below it. -/
theorem rankedChain_succ {s : State} (hc : s.rm.configured = true) (ha : Memory.allAdmitted s.rm.matrix = true)
    (p fuel : Nat) {bound : Val} (hb : Val.comparable bound = true) :
    rankedChain p (fuel + 1) bound s =
      if (s.rm.findMaxInCol p bound).1 = vzero then []
      else s.rm.findMaxInCol p bound ::
        rankedChain p fuel (s.rm.findMaxInCol p bound).1
          (s.answering (.columnMaximum (s.rm.findMaxInCol p bound).1 (s.rm.findMaxInCol p bound).2)) := by
  rw [rankedChain, after_eq (exec_findMaxInCol hc ha p hb)]
  rfl

/-- `v` is a positive value of column `p`, below the bound, and `row` the greatest candidate that holds it. -/
structure RmUnit.Ranked (u : RmUnit) (p : Nat) (bound v : Val) (row : Nat) : Prop where
  positive : vlt vzero v = true
  below : vlt v bound = true
  inside : row < u.nbSymbols
  holds : u.entry p row = v
  last : ∀ c, c < u.nbSymbols → u.entry p c = v → c ≤ row

/-- The candidates of column `p` whose entries lie strictly between `vzero` and the bound. -/
def RmUnit.pending (u : RmUnit) (p : Nat) (bound : Val) : Finset Nat :=
  (Finset.range u.nbSymbols).filter fun c => vlt vzero (u.entry p c) = true ∧ vlt (u.entry p c) bound = true

theorem RmUnit.mem_pending {u : RmUnit} {p : Nat} {bound : Val} {c : Nat} :
    c ∈ u.pending p bound ↔
      c < u.nbSymbols ∧ vlt vzero (u.entry p c) = true ∧ vlt (u.entry p c) bound = true := by
  simp [RmUnit.pending]

/-- Below a pending entry fewer candidates are pending. -/
theorem RmUnit.card_pending_lt {u : RmUnit} {p : Nat} {bound : Val} {c : Nat} (h : c ∈ u.pending p bound) :
    (u.pending p (u.entry p c)).card < (u.pending p bound).card := by
  obtain ⟨hcand, hpos, hbelow⟩ := RmUnit.mem_pending.1 h
  refine Finset.card_lt_card ⟨fun d hd => ?_, fun hsub => ?_⟩
  · obtain ⟨hd, hdpos, hdbelow⟩ := RmUnit.mem_pending.1 hd
    exact RmUnit.mem_pending.2 ⟨hd, hdpos, vlt_trans hdbelow hbelow⟩
  · obtain ⟨-, -, hself⟩ := RmUnit.mem_pending.1 (hsub h)
    exact ne_of_vlt hself rfl

/-- With no candidate pending nothing is ranked. -/
theorem RmUnit.not_ranked_of_pending_empty {u : RmUnit} {p : Nat} {bound : Val} (h : u.pending p bound = ∅) (v : Val)
    (row : Nat) : ¬ u.Ranked p bound v row := by
  rintro ⟨hpos, hbelow, hrow, rfl, -⟩
  exact Finset.notMem_empty row (h ▸ RmUnit.mem_pending.2 ⟨hrow, hpos, hbelow⟩)

/-- What a search below a bound finds: nothing when no candidate is pending, otherwise the greatest ranked value. -/
theorem RmUnit.findMaxInCol_ranked {u : RmUnit} (ha : Memory.allAdmitted u.matrix = true) {p : Nat}
    (hp : p < u.messageLength) (bound : Val) :
    (u.pending p bound = ∅ ∧ u.findMaxInCol p bound = (vzero, 0)) ∨
      ∃ c, u.findMaxInCol p bound = (u.entry p c, c) ∧ u.Ranked p bound (u.entry p c) c ∧
        ∀ d ∈ u.pending p bound, u.entry p d = u.entry p c ∨ vlt (u.entry p d) (u.entry p c) = true := by
  rcases RmUnit.findMaxInCol_spec ha p bound with ⟨hnone, hmax⟩ | ⟨c, -, hcand, hmax, hpos, hbelow, hgreatest⟩
  · refine .inl ⟨Finset.eq_empty_of_forall_notMem fun d hd => ?_, hmax⟩
    obtain ⟨hd, hboth⟩ := RmUnit.mem_pending.1 hd
    exact hnone.elim (Nat.not_le.2 hp) fun h => h d hd hboth
  · refine .inr ⟨c, hmax, ⟨hpos, hbelow, hcand, rfl, fun d hd heq => ?_⟩, fun d hd => ?_⟩
    · exact Nat.le_of_not_lt fun hcd => ne_of_vlt ((hgreatest d hd (heq ▸ hpos) (heq ▸ hbelow)).2 hcd) heq
    · obtain ⟨hd, hdpos, hdbelow⟩ := RmUnit.mem_pending.1 hd
      exact eq_or_vlt_of_vle (RmUnit.admitted_entry ha p d) (RmUnit.admitted_entry ha p c)
        (hgreatest d hd hdpos hdbelow).1

/-- With the greatest ranked value taken off, the ranked values left are those below it. -/
theorem RmUnit.ranked_iff_of_greatest {u : RmUnit} {p : Nat} {bound : Val} {c : Nat}
    (hc : u.Ranked p bound (u.entry p c) c)
    (hgreatest : ∀ d ∈ u.pending p bound, u.entry p d = u.entry p c ∨ vlt (u.entry p d) (u.entry p c) = true)
    (v : Val) (row : Nat) :
    u.Ranked p bound v row ↔ (v, row) = (u.entry p c, c) ∨ u.Ranked p (u.entry p c) v row := by
  constructor
  · rintro ⟨hpos, hbelow, hrow, rfl, hlast⟩
    rcases hgreatest row (RmUnit.mem_pending.2 ⟨hrow, hpos, hbelow⟩) with heq | hlt
    · have hsame : row = c := Nat.le_antisymm (hc.last row hrow heq) (hlast c hc.inside heq.symm)
      exact .inl (by rw [hsame])
    · exact .inr ⟨hpos, hlt, hrow, rfl, hlast⟩
  · rintro (heq | ⟨hpos, hlt, hrow, hholds, hlast⟩)
    · cases heq
      exact hc
    · exact ⟨hpos, vlt_trans hlt hc.below, hrow, hholds, hlast⟩

/-- With calls enough for the pending candidates, the chain is descending and lists the ranked values. -/
theorem rankedChain_spec {p : Nat} (fuel : Nat) {s : State} (hc : s.rm.configured = true)
    (ha : Memory.allAdmitted s.rm.matrix = true) (hp : p < s.rm.messageLength) {bound : Val}
    (hb : Val.comparable bound = true) (hfuel : (s.rm.pending p bound).card ≤ fuel) :
    (rankedChain p fuel bound s).Pairwise (fun x y => vlt y.1 x.1 = true) ∧
      ∀ v row, (v, row) ∈ rankedChain p fuel bound s ↔ s.rm.Ranked p bound v row := by
  induction fuel generalizing s bound with
  | zero =>
    refine ⟨List.Pairwise.nil, fun v row => ?_⟩
    simpa [rankedChain] using RmUnit.not_ranked_of_pending_empty (Finset.card_eq_zero.1 (Nat.le_zero.1 hfuel)) v row
  | succ fuel ih =>
    rw [rankedChain_succ hc ha p fuel hb]
    rcases RmUnit.findMaxInCol_ranked ha hp bound with ⟨hnone, hmax⟩ | ⟨c, hmax, hranked, hgreatest⟩
    · rw [hmax, if_pos rfl]
      exact ⟨List.Pairwise.nil, fun v row => by simpa using RmUnit.not_ranked_of_pending_empty hnone v row⟩
    · have hne : s.rm.entry p c ≠ vzero := (ne_of_vlt hranked.positive).symm
      have hfewer := RmUnit.card_pending_lt (RmUnit.mem_pending.2 ⟨hranked.inside, hranked.positive, hranked.below⟩)
      rw [hmax, if_neg hne]
      obtain ⟨hsorted, hmem⟩ := ih (s := s.answering (.columnMaximum (s.rm.entry p c) c)) hc ha hp
        (comparable_of_admitted (RmUnit.admitted_entry ha p c)) (by simpa using by omega)
      refine ⟨List.pairwise_cons.2 ⟨fun x hx => ((hmem x.1 x.2).1 hx).below, hsorted⟩, fun v row => ?_⟩
      rw [List.mem_cons, hmem, RmUnit.ranked_iff_of_greatest hranked hgreatest]
      rfl

/-- Settles O51: at most `S` candidates are pending, so `rankedChain_spec` applies; every entry is below the first
bound. -/
theorem rankedExtractionEnumeratesTheColumn : Obligations.RankedExtractionEnumeratesTheColumn := by
  intro s p fuel bound hc ha hb hp habove hfuel
  have hcard : (s.rm.pending p bound).card ≤ s.rm.nbSymbols :=
    (Finset.card_filter_le _ _).trans (Finset.card_range _).le
  obtain ⟨hsorted, hmem⟩ := rankedChain_spec fuel hc ha hp hb (hcard.trans hfuel)
  refine ⟨hsorted, fun v row => (hmem v row).trans ⟨fun h => ?_, fun h => ?_⟩⟩
  · exact ⟨h.positive, h.inside, h.holds, h.last⟩
  · obtain ⟨hpos, hrow, hholds, hlast⟩ := h
    exact ⟨hpos, hholds ▸ habove row hrow, hrow, hholds, hlast⟩

end Sys2Proof.Machine
